-- ==== Sys2Proof/Word.lean ====
section
/-! DEFINITION. The word of the datapath, the register index, and the two readings of a word
(spec/00_scope.md R11, R12; spec/10_state.md R20, R21). -/

namespace Sys2Proof

/-- A register value, a literal or the pc: 32 bits (R7 `XLEN`, `PCW`, `LITW`; R12). -/
abbrev Word := BitVec 32

/-- The instruction word of the word front end: 64 bits (R7 `ILEN`, R72). -/
abbrev InstrWord := BitVec 64

/-- A canonical register index, 0 to 31; it is also the register's address in the register file (R21). -/
abbrev Reg := Fin 32

/-- `unsigned(v)` of R12: the natural number the bits denote. -/
def unsigned (v : Word) : Int := v.toNat

/-- `signed(v)` of R12: the two's-complement integer the bits denote. -/
def signed (v : Word) : Int := v.toInt

/-- `bv32(n)` of R12: the 32-bit vector whose unsigned value is `n mod 2^32`, for any integer `n`. -/
def bv32 (n : Int) : Word := BitVec.ofInt 32 n

end Sys2Proof
end

