-- ==== Sys2Proof/Syntax.lean ====
section
/-! DEFINITION. What goes into a cycle and what comes out of it: the fifteen instructions, the two kinds of request,
the seven reported faults, the trace record and the decoded form (spec/00_scope.md R8, R9; spec/30_encoding.md R71, R100;
spec/60_exceptions.md R170). -/

namespace Sys2Proof

/-- `Instr` of R8, one constructor per row of spec/opcode_table.json.
Operands stand in the order of the assembler text (R98): for the R-format `rd rs rt`, for the I-format `rt rs lit`
(`rt` is the destination), for the branches `rs rt lit`.
Every index is a `Fin 32` and every literal is a whole 32-bit word, so every term is well formed (R77). -/
inductive Instr where
  | add  (rd rs rt : Reg)
  | addu (rd rs rt : Reg)
  | sub  (rd rs rt : Reg)
  | subu (rd rs rt : Reg)
  | mult (rd rs rt : Reg)
  | and  (rd rs rt : Reg)
  | or   (rd rs rt : Reg)
  | addi (rt rs : Reg) (lit : Word)
  | andi (rt rs : Reg) (lit : Word)
  | ori  (rt rs : Reg) (lit : Word)
  | j    (lit : Word)
  | beq  (rs rt : Reg) (lit : Word)
  | bne  (rs rt : Reg) (lit : Word)
  | blez (rs rt : Reg) (lit : Word)
  | bgtz (rs rt : Reg) (lit : Word)
deriving DecidableEq, Repr

/-- The fields of the one 64-bit layout, most significant first (R72). -/
structure Fields where
  op    : BitVec 6
  rs    : BitVec 5
  rt    : BitVec 5
  rd    : BitVec 5
  shamt : BitVec 5
  funct : BitVec 6
  lit   : Word
deriving DecidableEq, Repr

/-- `Request` of R8: what the host presents for one cycle. A text is the list of its characters' code points (R90). -/
inductive Request where
  | line (text : List Char)
  | word (iw : InstrWord)
deriving DecidableEq, Repr

/-- The `info` of `UnknownInstruction`: the mnemonic string or the 64-bit word (R170, R174). -/
inductive UnknownInfo where
  | mnemonic (m : List Char)
  | word (iw : InstrWord)
deriving DecidableEq, Repr

/-- `(kind, info)` of R9: the seven kinds of R170, in the order of their codes 1 to 7, each with the info it records.
These are REPORTED on the `err` output of a cycle that completes (R171): none of them stops the machine. -/
inductive FaultReport where
  | noMnemonic
  | tooManyOperands
  | unknownInstruction (info : UnknownInfo)
  | argumentCountMismatch (expected actual : Nat)
  | registerNotFound
  | invalidImmediate
  | invalidAddress
deriving DecidableEq, Repr

/-- The trace record of R100, the source's "executed machine word": `TraceR`, `TraceI`, `TraceJ`. -/
inductive Trace where
  | r (opcode : BitVec 6) (rs rt rd : Reg) (shamt : BitVec 5) (funct : BitVec 6)
  | i (opcode : BitVec 6) (rs rt : Reg) (immediate : Word)
  | j (opcode : BitVec 6) (address : Word)
deriving DecidableEq, Repr

/-- `Decoded` of R8: what either front end reduces a request to. -/
inductive Decoded where
  | exec (i : Instr)
  | fault (r : FaultReport)
deriving DecidableEq, Repr

/-- What the tokenizer answers (R91, R92). -/
inductive Tokens where
  | noMnemonic
  | tooManyOperands
  | ok (mnemonic : List Char) (operands : List (List Char))
deriving DecidableEq, Repr

end Sys2Proof
end

