-- ==== Sys2Proof/Config.lean ====
section
/-! DEFINITION. The parameters of spec/00_scope.md R7 that a step reads, and the one value the spec leaves open.
`NREG`, `XLEN`, `PCW`, `LITW` and `ILEN` stand in the types of Sys2Proof/Word.lean. -/

namespace Sys2Proof.Config

/-- `PC_STEP`: what a cycle that does not redirect the pc adds to it (R7, R31). -/
abbrev pcStep : Word := 4

/-- `RESET_PC`: the pc after reset (R7, R42). -/
abbrev resetPc : Word := 0

/-- `MAX_OPERANDS`: the largest number of operands a line may carry (R7, R92). -/
abbrev maxOperands : Nat := 3

/-- `LINE_MAX`: the largest number of characters of a line, a final newline counted (R7, R90). -/
abbrev lineMax : Nat := 63

/-- DESIGN CHOICE (log entry 8): the human-readable message a host prints after `ERRO:`.
The spec says that there is one and that its text is not in the source (R188, N12), so it is a free value: no body,
nothing can be proved of its text. No step reads it; only the rendering of a fault does. -/
opaque errorMessage : FaultReport → List Char

end Sys2Proof.Config
end

