-- ==== Sys2Proof/WellFormed.lean ====
section
/-! DEFINITION. What counts as a request within the contract (spec/30_encoding.md R90) and as a legal instruction word
(R81, R84). The decoder does not use these: that it accepts exactly the legal words is a statement about it. -/

namespace Sys2Proof

/-- A request within the contract of R209: a line of at most 63 characters (R90, U4), or any 64-bit word (R78). -/
def Request.wf : Request → Bool
  | .line text => text.length ≤ Config.lineMax
  | .word _ => true

/-- One row of the match and mask table of R84. -/
structure OpcodeRow where
  mnemonic : String
  mask : InstrWord
  pattern : InstrWord
deriving DecidableEq, Repr

/-- The fixed bits of the R-format: `op`, `shamt`, `funct` and `lit` (R84). -/
def maskR : InstrWord := 0xFC0007FFFFFFFFFF#64
/-- The fixed bits of the I and B formats: `op`, `rd`, `shamt` and `funct` (R84). -/
def maskIB : InstrWord := 0xFC00FFFF00000000#64
/-- The fixed bits of the J-format: all of `iw[63:32]` (R84). -/
def maskJ : InstrWord := 0xFFFFFFFF00000000#64

/-- The match and mask table of R84, in its order. -/
def opcodeRows : List OpcodeRow := [
  ⟨"ADD",  maskR,  0x0000002000000000#64⟩,
  ⟨"ADDU", maskR,  0x0000002100000000#64⟩,
  ⟨"SUB",  maskR,  0x0000002200000000#64⟩,
  ⟨"SUBU", maskR,  0x0000002300000000#64⟩,
  ⟨"MULT", maskR,  0x0000001800000000#64⟩,
  ⟨"AND",  maskR,  0x0000002400000000#64⟩,
  ⟨"OR",   maskR,  0x0000002500000000#64⟩,
  ⟨"ADDI", maskIB, 0x2000000000000000#64⟩,
  ⟨"ANDI", maskIB, 0x3000000000000000#64⟩,
  ⟨"ORI",  maskIB, 0x3400000000000000#64⟩,
  ⟨"J",    maskJ,  0x0800000000000000#64⟩,
  ⟨"BEQ",  maskIB, 0x1000000000000000#64⟩,
  ⟨"BNE",  maskIB, 0x1400000000000000#64⟩,
  ⟨"BLEZ", maskIB, 0x1800000000000000#64⟩,
  ⟨"BGTZ", maskIB, 0x1C00000000000000#64⟩]

/-- A word spells the instruction of a row exactly when `iw & mask = match` (R84). -/
def OpcodeRow.spells (row : OpcodeRow) (iw : InstrWord) : Bool := iw &&& row.mask = row.pattern

/-- A word is legal when it spells the instruction of some row (R81, R84). -/
def legalWord (iw : InstrWord) : Bool := opcodeRows.any (·.spells iw)

/-- The row of spec/opcode_table.json an instruction belongs to. -/
def Instr.mnemonic : Instr → String
  | .add _ _ _ => "ADD"
  | .addu _ _ _ => "ADDU"
  | .sub _ _ _ => "SUB"
  | .subu _ _ _ => "SUBU"
  | .mult _ _ _ => "MULT"
  | .and _ _ _ => "AND"
  | .or _ _ _ => "OR"
  | .addi _ _ _ => "ADDI"
  | .andi _ _ _ => "ANDI"
  | .ori _ _ _ => "ORI"
  | .j _ => "J"
  | .beq _ _ _ => "BEQ"
  | .bne _ _ _ => "BNE"
  | .blez _ _ _ => "BLEZ"
  | .bgtz _ _ _ => "BGTZ"

end Sys2Proof
end

