-- ==== Sys2Proof/Decode.lean ====
section
/-! DEFINITION. The front end (spec/30_encoding.md): `decode_word` and its inverse `encode` (section 2), and the text
front end: tokenizer, register names, literals, mnemonic dispatch, operand checks (section 3), with the disassembler and
the assembler. All of it is a pure function of the request (R70). -/

namespace Sys2Proof

/-! ## The word front end -/

/-- A 5-bit field read as a canonical register index (R72, R77). -/
def regOfBits (b : BitVec 5) : Reg := b.toFin

/-- A canonical register index as a 5-bit field (R72, R83). -/
def regBits (r : Reg) : BitVec 5 := BitVec.ofNat 5 r.val

/-- The fields of an instruction word, at the bit positions of R72. -/
def Fields.ofWord (iw : InstrWord) : Fields where
  op    := iw.extractLsb' 58 6
  rs    := iw.extractLsb' 53 5
  rt    := iw.extractLsb' 48 5
  rd    := iw.extractLsb' 43 5
  shamt := iw.extractLsb' 38 5
  funct := iw.extractLsb' 32 6
  lit   := iw.extractLsb' 0 32

/-- The word with the given fields, most significant first (R72, R83). -/
def Fields.toWord (f : Fields) : InstrWord :=
  f.op ++ f.rs ++ f.rt ++ f.rd ++ f.shamt ++ f.funct ++ f.lit

/-- The `funct` map under `op = 0` (R80): the instruction, waiting for `rd rs rt`. -/
def functMap : List (BitVec 6 × (Reg → Reg → Reg → Instr)) := [
  (0x18#6, .mult), (0x20#6, .add), (0x21#6, .addu), (0x22#6, .sub), (0x23#6, .subu), (0x24#6, .and), (0x25#6, .or)]

/-- The I-format rows of the `op` map (R79): the instruction, waiting for `rt rs lit`. -/
def immediateOpMap : List (BitVec 6 × (Reg → Reg → Word → Instr)) := [
  (0x08#6, .addi), (0x0C#6, .andi), (0x0D#6, .ori)]

/-- The B-format rows of the `op` map (R79): the instruction, waiting for `rs rt lit`. -/
def branchOpMap : List (BitVec 6 × (Reg → Reg → Word → Instr)) := [
  (0x04#6, .beq), (0x05#6, .bne), (0x06#6, .blez), (0x07#6, .bgtz)]

/-- R73: an R-format word has `shamt = 0` and `lit = 0`. -/
def Fields.decodeR (f : Fields) : Option Instr :=
  if f.shamt = 0 ∧ f.lit = 0 then
    (functMap.lookup f.funct).map fun c => c (regOfBits f.rd) (regOfBits f.rs) (regOfBits f.rt)
  else none

/-- R74: an I-format word has `rd = 0`, `shamt = 0` and `funct = 0`. -/
def Fields.decodeI (f : Fields) : Option Instr :=
  if f.rd = 0 ∧ f.shamt = 0 ∧ f.funct = 0 then
    (immediateOpMap.lookup f.op).map fun c => c (regOfBits f.rt) (regOfBits f.rs) f.lit
  else none

/-- R75: a J-format word has every field but `op` and `lit` zero. -/
def Fields.decodeJ (f : Fields) : Option Instr :=
  if f.op = 0x02#6 ∧ f.rs = 0 ∧ f.rt = 0 ∧ f.rd = 0 ∧ f.shamt = 0 ∧ f.funct = 0 then some (.j f.lit) else none

/-- R76: a B-format word has `rd = 0`, `shamt = 0` and `funct = 0`. -/
def Fields.decodeB (f : Fields) : Option Instr :=
  if f.rd = 0 ∧ f.shamt = 0 ∧ f.funct = 0 then
    (branchOpMap.lookup f.op).map fun c => c (regOfBits f.rs) (regOfBits f.rt) f.lit
  else none

/-- The instruction the fields spell, if any (R78): the R-format under `op = 0`, else the one format whose `op` map has
the value. -/
def Fields.decode (f : Fields) : Option Instr :=
  if f.op = 0x00#6 then f.decodeR
  else f.decodeI.or (f.decodeJ.or f.decodeB)

/-- `decode_word` of R78, total on all `2^64` words: a word that spells no instruction gives `UnknownInstruction` with the
word as info (R81). -/
def decodeWord (iw : InstrWord) : Decoded :=
  match (Fields.ofWord iw).decode with
  | some i => .exec i
  | none => .fault (.unknownInstruction (.word iw))

/-- An R-format word (R73). -/
def Fields.ofR (funct : BitVec 6) (rd rs rt : Reg) : Fields :=
  ⟨0x00#6, regBits rs, regBits rt, regBits rd, 0, funct, 0⟩

/-- An I-format or B-format word (R74, R76): the two registers go to `rs` and `rt`. -/
def Fields.ofIB (op : BitVec 6) (rs rt : Reg) (lit : Word) : Fields :=
  ⟨op, regBits rs, regBits rt, 0, 0, 0, lit⟩

/-- The fields of an instruction's one word (R83, with the values of R79 and R80). -/
def Instr.fields : Instr → Fields
  | .add rd rs rt => .ofR 0x20#6 rd rs rt
  | .addu rd rs rt => .ofR 0x21#6 rd rs rt
  | .sub rd rs rt => .ofR 0x22#6 rd rs rt
  | .subu rd rs rt => .ofR 0x23#6 rd rs rt
  | .mult rd rs rt => .ofR 0x18#6 rd rs rt
  | .and rd rs rt => .ofR 0x24#6 rd rs rt
  | .or rd rs rt => .ofR 0x25#6 rd rs rt
  | .addi rt rs lit => .ofIB 0x08#6 rs rt lit
  | .andi rt rs lit => .ofIB 0x0C#6 rs rt lit
  | .ori rt rs lit => .ofIB 0x0D#6 rs rt lit
  | .j lit => ⟨0x02#6, 0, 0, 0, 0, 0, lit⟩
  | .beq rs rt lit => .ofIB 0x04#6 rs rt lit
  | .bne rs rt lit => .ofIB 0x05#6 rs rt lit
  | .blez rs rt lit => .ofIB 0x06#6 rs rt lit
  | .bgtz rs rt lit => .ofIB 0x07#6 rs rt lit

/-- `encode(instr)` of R83. -/
def encode (i : Instr) : InstrWord := i.fields.toWord

/-- The instruction this decoder reads from the low `nbits` bits of `w`, numbered as spec/opcode_table.json numbers them:
bit 0 is the least significant bit of the one 64-bit word, and every bit above `nbits` is 0 (log entry 7). -/
def decodeTableWord (nbits w : Nat) : Option Instr :=
  match decodeWord (BitVec.ofNat 64 (w % 2 ^ nbits)) with
  | .exec i => some i
  | .fault _ => none

/-! ## The text front end: tokenizer -/

/-- `WS` of R91: space and newline only; a tab or a carriage return is an ordinary character. -/
def isWs (c : Char) : Bool := c == ' ' || c == '\n'

/-- A piece without its leading and trailing `WS` characters (R92). -/
def trim (s : List Char) : List Char := ((s.dropWhile isWs).reverse.dropWhile isWs).reverse

/-- The pieces of a text between its commas: `k` commas give `k + 1` pieces, and a piece may be empty (R92). -/
def splitCommas : List Char → List (List Char)
  | [] => [[]]
  | c :: cs =>
    if c = ',' then [] :: splitCommas cs
    else match splitCommas cs with
      | [] => [[c]]
      | p :: ps => (c :: p) :: ps

/-- The operands of the text after the mnemonic: none when it is blank, else its trimmed pieces (R92). -/
def operandsOf (rest : List Char) : List (List Char) :=
  if rest.all isWs then [] else (splitCommas rest).map trim

/-- The mnemonic of a line: the maximal run of non-`WS` characters after the leading `WS` characters (R91). -/
def mnemonicOf (text : List Char) : List Char := (text.dropWhile isWs).takeWhile fun c => !isWs c

/-- `rest` of R92: everything after the mnemonic. -/
def afterMnemonic (text : List Char) : List Char := (text.dropWhile isWs).dropWhile fun c => !isWs c

/-- `tokenize(text)` of R91 and R92. The limit on operands is checked here, before the mnemonic is looked up. -/
def tokenize (text : List Char) : Tokens :=
  if text.all isWs then .noMnemonic
  else if (operandsOf (afterMnemonic text)).length > Config.maxOperands then .tooManyOperands
  else .ok (mnemonicOf text) (operandsOf (afterMnemonic text))

/-! ## The text front end: register names and literals -/

/-- The names of the 32 registers in the order of their canonical indices (R21, R93). -/
def regNames : Vector String 32 := #v[
  "$zero", "$at", "$v0", "$v1", "$a0", "$a1", "$a2", "$a3",
  "$t0", "$t1", "$t2", "$t3", "$t4", "$t5", "$t6", "$t7",
  "$s0", "$s1", "$s2", "$s3", "$s4", "$s5", "$s6", "$s7",
  "$t8", "$t9", "$k0", "$k1", "$gp", "$sp", "$fp", "$ra"]

/-- `name(i)` of R95: the one name of a canonical index. -/
def regName (i : Reg) : List Char := regNames[i].toList

/-- `idx(s)` of R94: the canonical index of a register name, compared whole and case-sensitively (R93), or none. -/
def idx (s : List Char) : Option Reg := (List.finRange 32).find? fun i => regName i == s

/-- The number a run of decimal digits denotes, read after the digits already worth `acc`; none at any other character. -/
def digitsValue : List Char → Nat → Option Nat
  | [], acc => some acc
  | c :: cs, acc => if c.isDigit then digitsValue cs (acc * 10 + (c.toNat - 48)) else none

/-- One or more decimal digits and nothing else (R96). -/
def parseDigits (s : List Char) : Option Nat := if s.isEmpty then none else digitsValue s 0

/-- The integer an optionally signed run of decimal digits denotes (R96). -/
def parseInteger : List Char → Option Int
  | [] => none
  | c :: ds =>
    if c = '-' then (parseDigits ds).map fun n : Nat => -Int.ofNat n
    else if c = '+' then (parseDigits ds).map Int.ofNat
    else (parseDigits (c :: ds)).map Int.ofNat

/-- `parse_lit(s)` of R96: the literal's 32 bits, or none for every other string and for an integer outside
`-2^31 .. 2^31 - 1`. -/
def parseLit (s : List Char) : Option Word :=
  match parseInteger s with
  | some v => if -(2 ^ 31) ≤ v ∧ v ≤ 2 ^ 31 - 1 then some (bv32 v) else none
  | none => none

/-! ## The text front end: dispatch and operand checks (R97) -/

/-- An R-format line: three operands, all registers, in the order `rd rs rt`. -/
def operandsR (c : Reg → Reg → Reg → Instr) (ops : List (List Char)) : Decoded :=
  match ops with
  | [a, b, d] =>
    match idx a, idx b, idx d with
    | some rd, some rs, some rt => .exec (c rd rs rt)
    | _, _, _ => .fault .registerNotFound
  | _ => .fault (.argumentCountMismatch 3 ops.length)

/-- An I-format or B-format line: two registers and a literal; `bad` is the fault of an invalid literal, reported after
the registers (R181). -/
def operandsRegRegLit (bad : FaultReport) (c : Reg → Reg → Word → Instr) (ops : List (List Char)) : Decoded :=
  match ops with
  | [a, b, d] =>
    match idx a, idx b with
    | some r0, some r1 =>
      match parseLit d with
      | some lit => .exec (c r0 r1 lit)
      | none => .fault bad
    | _, _ => .fault .registerNotFound
  | _ => .fault (.argumentCountMismatch 3 ops.length)

/-- A J-format line: one literal. -/
def operandsLit (c : Word → Instr) (ops : List (List Char)) : Decoded :=
  match ops with
  | [a] =>
    match parseLit a with
    | some lit => .exec (c lit)
    | none => .fault .invalidAddress
  | _ => .fault (.argumentCountMismatch 1 ops.length)

/-- The executors the fifteen mnemonics are routed to (R97). -/
def executors : List (String × (List (List Char) → Decoded)) := [
  ("ADD",  operandsR .add), ("ADDU", operandsR .addu), ("SUB", operandsR .sub), ("SUBU", operandsR .subu),
  ("MULT", operandsR .mult), ("AND", operandsR .and), ("OR", operandsR .or),
  ("ADDI", operandsRegRegLit .invalidImmediate .addi),
  ("ANDI", operandsRegRegLit .invalidImmediate .andi),
  ("ORI",  operandsRegRegLit .invalidImmediate .ori),
  ("J",    operandsLit .j),
  ("BEQ",  operandsRegRegLit .invalidAddress .beq),
  ("BNE",  operandsRegRegLit .invalidAddress .bne),
  ("BLEZ", operandsRegRegLit .invalidAddress .blez),
  ("BGTZ", operandsRegRegLit .invalidAddress .bgtz)]

/-- The mnemonic dispatcher: a case-sensitive match against the closed set, else `UnknownInstruction` with the mnemonic
as info; the operands are not looked at before (R97, R174). -/
def dispatchMnemonic (m : List Char) (ops : List (List Char)) : Decoded :=
  match executors.find? fun e => e.1.toList == m with
  | some e => e.2 ops
  | none => .fault (.unknownInstruction (.mnemonic m))

/-- `decode_line(text)` of R97. -/
def decodeLine (text : List Char) : Decoded :=
  match tokenize text with
  | .noMnemonic => .fault .noMnemonic
  | .tooManyOperands => .fault .tooManyOperands
  | .ok m ops => dispatchMnemonic m ops

/-- `front_end(req)` of R70: a pure function of the request. -/
def frontEnd : Request → Decoded
  | .line text => decodeLine text
  | .word iw => decodeWord iw

/-- `assemble(line)` of R98: the word of a line that decodes to an instruction; a line that faults has none. -/
def assemble (text : List Char) : Option InstrWord :=
  match decodeLine text with
  | .exec i => some (encode i)
  | .fault _ => none

/-! ## Numbers and instructions as text -/

/-- The decimal digits of a number; `fuel` bounds their count. -/
def decimalDigits : Nat → Nat → List Char
  | 0, _ => []
  | fuel + 1, n =>
    if n < 10 then [Char.ofNat (48 + n)] else decimalDigits fuel (n / 10) ++ [Char.ofNat (48 + n % 10)]

/-- A natural number in decimal (R102). -/
def natText (n : Nat) : List Char := decimalDigits (n + 1) n

/-- A literal in decimal, as `signed(lit)` (R102). -/
def litText (lit : Word) : List Char :=
  if signed lit < 0 then '-' :: natText (signed lit).natAbs else natText (signed lit).natAbs

/-- The operands of an instruction as text, in the order of R98. -/
def Instr.operandTexts : Instr → List (List Char)
  | .add rd rs rt | .addu rd rs rt | .sub rd rs rt | .subu rd rs rt
  | .mult rd rs rt | .and rd rs rt | .or rd rs rt => [regName rd, regName rs, regName rt]
  | .addi rt rs lit | .andi rt rs lit | .ori rt rs lit => [regName rt, regName rs, litText lit]
  | .j lit => [litText lit]
  | .beq rs rt lit | .bne rs rt lit | .blez rs rt lit | .bgtz rs rt lit => [regName rs, regName rt, litText lit]

/-- The operands of a line, a comma and a space between each two. -/
def joinOperands : List (List Char) → List Char
  | [] => []
  | [a] => a
  | a :: rest => a ++ ", ".toList ++ joinOperands rest

/-- The assembler line of an instruction, in the syntax of R98 (the spacing is the model's, log entry 9). -/
def disassemble (i : Instr) : List Char := i.mnemonic.toList ++ ' ' :: joinOperands i.operandTexts

end Sys2Proof
end

