-- ==== Sys2Proof/Machine/State.lean ====
section
/-! DEFINITION. The state of the machine, its reset, and the reasons a step can stop (spec/10_state.md R20, R42, R43;
spec/00_scope.md R8, R9). -/

namespace Sys2Proof.Machine

/-- The output port of the core: the result `(trace, err)` of the last completed cycle (R9). It is not architectural
state: no cycle reads it (R9, D27; log entry 3). -/
structure Outputs where
  trace : Option Trace
  err   : Option FaultReport
deriving DecidableEq, Repr

/-- The state. `x` and `pc` are the spec's whole architectural state (R20); `requests` is the host's side of the request
port and `outputs` the core's side of the result port (log entries 1 and 3). -/
structure State where
  /-- The register file: `x[i]` is the register of canonical index `i`, `x[0]` real storage like the others (R20, R24). -/
  x        : Vector Word 32
  /-- The program counter, any 32-bit value (R30, R34). -/
  pc       : Word
  /-- The requests the host has still to present, the next one first (R8, R43, R44). -/
  requests : List Request
  /-- The result of the last completed cycle (R9). -/
  outputs  : Outputs
deriving DecidableEq, Repr

/-- The machine right after reset: every register 0, the pc 0, the outputs carrying nothing (R42, R201), and no request
presented yet (log entry 1). -/
def State.reset : State where
  x        := Vector.replicate 32 0
  pc       := Config.resetPc
  requests := []
  outputs  := ⟨none, none⟩

/-- The faults that STOP the machine: there are none. Every fault of the spec is reported on the `err` output by a cycle
that completes, and the next cycle runs normally (R171, R189: "No crash/fatal path exists"); see `FaultReport` for them
and `State.takeFault` for their effect (log entry 4). Nothing raises a constructor of this type, since it has none. -/
inductive Fault where
deriving DecidableEq, Repr

/-- The refusals: what the model gives no meaning to. -/
inductive Refusal where
  /-- Raised by an arm of `exec` that has no meaning yet; no arm is left so. Safe: the model stops. -/
  | notModelled (mnemonic : String)
  /-- Raised by `cycle` for a line of more than 63 characters, which is not a request: "a model refuses it" (R90, U4).
  Safe: the model stops where the contract of the host is broken (log entry 5). -/
  | lineTooLong
deriving DecidableEq, Repr

end Sys2Proof.Machine
end

