-- ==== Sys2Proof/Machine/Ops.lean ====
section
/-! DEFINITION. The named operations a cycle is made of: register access, the zero reset, the pc's three ways to end a
cycle, the two outputs, taking a fault, presenting a request (spec/00_scope.md R13; spec/10_state.md R24 to R36;
spec/60_exceptions.md R170, R171). -/

namespace Sys2Proof.Machine

/-- What a cycle answers. -/
abbrev Result := Host.Outcome State Fault Refusal

/-- `x[i]` of R13: no side effect, register 0 read like any other. -/
def State.readReg (s : State) (i : Reg) : Word := s.x[i]

/-- `x[i] <- v` of R13: register 0 is written like any other (R24, R25). -/
def State.writeReg (s : State) (i : Reg) (v : Word) : State := { s with x := s.x.set i v }

/-- Step 1 of the cycle: `x[0] <- 0` (R26, R36). -/
def State.zeroReset (s : State) : State := s.writeReg 0 0

/-- The default end of a cycle: `pc <- pc + 4` modulo `2^32` (R31, R34). -/
def State.advance (s : State) : State := { s with pc := s.pc + Config.pcStep }

/-- The redirected end of a cycle: `pc <- lit`, absolute, unscaled, unchecked (R33, R34). -/
def State.redirect (s : State) (lit : Word) : State := { s with pc := lit }

/-- `emit T` of R13 in a cycle without a fault: the trace output carries `T`, the `err` output nothing (R9, R100). -/
def State.emit (s : State) (t : Trace) : State := { s with outputs := ⟨some t, none⟩ }

/-- `raise K(info)` of R13: the `err` output carries the report, no trace is emitted (R9, R171). -/
def State.report (s : State) (r : FaultReport) : State := { s with outputs := ⟨none, some r⟩ }

/-- `UnknownInstruction` is the one kind whose cycle leaves the pc unchanged (R35, R170, R174). -/
def faultKeepsPc : FaultReport → Bool
  | .unknownInstruction _ => true
  | .noMnemonic | .tooManyOperands | .argumentCountMismatch _ _
  | .registerNotFound | .invalidImmediate | .invalidAddress => false

/-- TAKING A FAULT, the one operation shared by all seven kinds (R171, R182): the report goes to the `err` output, the
pc advances by 4 except for `UnknownInstruction`, and nothing else changes; nothing is saved, no mode changes, control
goes nowhere. Step 1 of the cycle has already reset `x[0]`. There is no return from a fault to model: "after a faulting
cycle the next cycle is an ordinary cycle" (R183). -/
def State.takeFault (s : State) (r : FaultReport) : State :=
  bif faultKeepsPc r then s.report r else (s.report r).advance

/-- The numeric code of a kind (R170). -/
def faultCode : FaultReport → Nat
  | .noMnemonic => 1
  | .tooManyOperands => 2
  | .unknownInstruction _ => 3
  | .argumentCountMismatch _ _ => 4
  | .registerNotFound => 5
  | .invalidImmediate => 6
  | .invalidAddress => 7

/-- The code on the status output: 0 for no fault (R170). -/
def Outputs.errCode (o : Outputs) : Nat :=
  match o.err with
  | none => 0
  | some r => faultCode r

/-- The host presents a request, to be taken before those already waiting (R209). -/
def State.present (s : State) (req : Request) : State := { s with requests := req :: s.requests }

/-- An observer's view of the state between cycles: every register and the pc (R10). -/
def State.observe (s : State) : Vector Word 32 × Word := (s.x, s.pc)

end Sys2Proof.Machine
end

