-- ==== Sys2Proof/Machine/Operands.lean ====
section
/-! DEFINITION. The two operand forms, a register and a literal used whole (spec/30_encoding.md R77), and the results the
execution units compute from operand values (spec/40_arith_logic_r.md R121 to R128; spec/41_immediate.md R141 to R143).
Every arithmetic result is the exact integer result reduced modulo `2^32` (R128). -/

namespace Sys2Proof.Machine

/-- A register operand: the value of the register with that canonical index (R77). -/
abbrev State.regOperand (s : State) (i : Reg) : Word := s.readReg i

/-- A literal operand: all 32 bits, not extended, not scaled, not shifted (R77). -/
abbrev litOperand (lit : Word) : Word := lit

/-- Addition, signed reading (R121, R141). -/
def addSigned (a b : Word) : Word := bv32 (signed a + signed b)

/-- Addition, unsigned reading (R122). -/
def addUnsigned (a b : Word) : Word := bv32 (unsigned a + unsigned b)

/-- Subtraction, signed reading; the first operand is the minuend (R123). -/
def subSigned (a b : Word) : Word := bv32 (signed a - signed b)

/-- Subtraction, unsigned reading; the first operand is the minuend (R124). -/
def subUnsigned (a b : Word) : Word := bv32 (unsigned a - unsigned b)

/-- The low 32 bits of the product, signed reading (R125). -/
def mulSigned (a b : Word) : Word := bv32 (signed a * signed b)

/-- Bitwise AND of all 32 bits (R126, R142). -/
def andBits (a b : Word) : Word := a &&& b

/-- Bitwise OR of all 32 bits (R127, R143). -/
def orBits (a b : Word) : Word := a ||| b

end Sys2Proof.Machine
end

