-- ==== Sys2Proof/Machine/Flags.lean ====
section
/-! DEFINITION. The hardware has no flags and no condition codes: no instruction sets or reads one (spec/10_state.md R37).
"The branches compare registers directly": this file holds the four conditions they compute (spec/43_branch.md R155 to
R160), with the first operand on the left. -/

namespace Sys2Proof.Machine

/-- `BEQ`: equality of all 32 bits (R156). -/
def condEqual (a b : Word) : Bool := a == b

/-- `BNE`: some bit differs (R157). -/
def condNotEqual (a b : Word) : Bool := a != b

/-- `BLEZ`: the first register is less than or equal to the second, signed (R158). -/
def condLessOrEqual (a b : Word) : Bool := signed a ≤ signed b

/-- `BGTZ`: the first register is greater than the second, signed (R159). -/
def condGreater (a b : Word) : Bool := signed a > signed b

end Sys2Proof.Machine
end

