-- ==== Sys2Proof/Machine/Formats.lean ====
section
/-! DEFINITION. The shared contract of each instruction format, steps 4 and 5 of the cycle of spec/10_state.md R36: read the
sources, compute, write at most one register, emit one trace record, end the cycle's pc (spec/40_arith_logic_r.md R120;
spec/41_immediate.md R140; spec/42_jump.md R150; spec/43_branch.md R155). Step 1, the reset of `x[0]`, comes before, in
Sys2Proof/Machine/Cycle.lean. -/

namespace Sys2Proof.Machine

/-- The contract of the R-format (R120): both sources are read before `x[rd]` is written (R14). -/
def execR (funct : BitVec 6) (f : Word → Word → Word) (rd rs rt : Reg) (s : State) : Result :=
  let a := s.regOperand rs
  let b := s.regOperand rt
  .next (((s.writeReg rd (f a b)).emit (.r 0x00#6 rs rt rd 0 funct)).advance)

/-- The contract of the I-format (R140): the destination is `rt`; the trace has the source first (R140 e). -/
def execI (op : BitVec 6) (f : Word → Word → Word) (rt rs : Reg) (lit : Word) (s : State) : Result :=
  let a := s.regOperand rs
  .next (((s.writeReg rt (f a (litOperand lit))).emit (.i op rs rt lit)).advance)

/-- The contract of the jump (R150): no register read or written, no link, no delay slot. -/
def execJump (op : BitVec 6) (lit : Word) (s : State) : Result :=
  .next ((s.emit (.j op lit)).redirect (litOperand lit))

/-- The contract of the branches (R155): no register written; the trace is the J-format record, taken or not (R101). -/
def execB (op : BitVec 6) (cond : Word → Word → Bool) (rs rt : Reg) (lit : Word) (s : State) : Result :=
  let a := s.regOperand rs
  let b := s.regOperand rt
  let emitted := s.emit (.j op lit)
  .next (bif cond a b then emitted.redirect (litOperand lit) else emitted.advance)

end Sys2Proof.Machine
end

