-- ==== Sys2Proof/Machine/ArithLogic.lean ====
section
/-! DEFINITION. The R-format arithmetic and logical instructions (spec/40_arith_logic_r.md section 2). -/

namespace Sys2Proof.Machine

/-- `ADD rd, rs, rt`: `x[rd] <- bv32(signed(a) + signed(b))`, no overflow fault (R121). -/
def execAdd (rd rs rt : Reg) (s : State) : Result := execR 0x20#6 addSigned rd rs rt s

/-- `ADDU rd, rs, rt`: `x[rd] <- bv32(unsigned(a) + unsigned(b))` (R122). -/
def execAddu (rd rs rt : Reg) (s : State) : Result := execR 0x21#6 addUnsigned rd rs rt s

/-- `SUB rd, rs, rt`: `x[rd] <- bv32(signed(a) - signed(b))`, no overflow fault (R123). -/
def execSub (rd rs rt : Reg) (s : State) : Result := execR 0x22#6 subSigned rd rs rt s

/-- `SUBU rd, rs, rt`: `x[rd] <- bv32(unsigned(a) - unsigned(b))` (R124). -/
def execSubu (rd rs rt : Reg) (s : State) : Result := execR 0x23#6 subUnsigned rd rs rt s

/-- `MULT rd, rs, rt`: the low 32 bits of the product, to a general register; there is no HI or LO (R125, R39). -/
def execMult (rd rs rt : Reg) (s : State) : Result := execR 0x18#6 mulSigned rd rs rt s

/-- `AND rd, rs, rt` (R126). -/
def execAnd (rd rs rt : Reg) (s : State) : Result := execR 0x24#6 andBits rd rs rt s

/-- `OR rd, rs, rt` (R127). -/
def execOr (rd rs rt : Reg) (s : State) : Result := execR 0x25#6 orBits rd rs rt s

end Sys2Proof.Machine
end

