-- ==== Sys2Proof/Machine/Branch.lean ====
section
/-! DEFINITION. The conditional branches (spec/43_branch.md section 2). All four compare two registers. -/

namespace Sys2Proof.Machine

/-- `BEQ rs, rt, addr` (R156). -/
def execBeq (rs rt : Reg) (lit : Word) (s : State) : Result := execB 0x04#6 condEqual rs rt lit s

/-- `BNE rs, rt, addr` (R157). -/
def execBne (rs rt : Reg) (lit : Word) (s : State) : Result := execB 0x05#6 condNotEqual rs rt lit s

/-- `BLEZ rs, rt, addr`: `x[rs] <= x[rt]`, signed (R158). -/
def execBlez (rs rt : Reg) (lit : Word) (s : State) : Result := execB 0x06#6 condLessOrEqual rs rt lit s

/-- `BGTZ rs, rt, addr`: `x[rs] > x[rt]`, signed (R159). -/
def execBgtz (rs rt : Reg) (lit : Word) (s : State) : Result := execB 0x07#6 condGreater rs rt lit s

end Sys2Proof.Machine
end

