-- ==== Sys2Proof/Machine/Immediate.lean ====
section
/-! DEFINITION. The I-format immediate instructions (spec/41_immediate.md section 2). -/

namespace Sys2Proof.Machine

/-- `ADDI rt, rs, imm`: `x[rt] <- bv32(signed(a) + signed(lit))`, no overflow fault (R141). -/
def execAddi (rt rs : Reg) (lit : Word) (s : State) : Result := execI 0x08#6 addSigned rt rs lit s

/-- `ANDI rt, rs, imm`: all 32 bits of the literal take part (R142). -/
def execAndi (rt rs : Reg) (lit : Word) (s : State) : Result := execI 0x0C#6 andBits rt rs lit s

/-- `ORI rt, rs, imm`: all 32 bits of the literal take part (R143). -/
def execOri (rt rs : Reg) (lit : Word) (s : State) : Result := execI 0x0D#6 orBits rt rs lit s

end Sys2Proof.Machine
end

