-- ==== Sys2Proof/Machine/Jump.lean ====
section
/-! DEFINITION. The jump instruction (spec/42_jump.md). -/

namespace Sys2Proof.Machine

/-- `J addr`: `npc <- lit`, so the cycle ends with `pc = lit` (R150). -/
def execJ (lit : Word) (s : State) : Result := execJump 0x02#6 lit s

end Sys2Proof.Machine
end

