-- ==== Sys2Proof/Machine/Dispatch.lean ====
section
/-! DEFINITION. `execute(instr)` of spec/10_state.md R36, one arm per instruction. -/

namespace Sys2Proof.Machine

def exec (i : Instr) (s : State) : Host.Outcome State Fault Refusal :=
  match i with
  | .add rd rs rt => Sys2Proof.Machine.execAdd rd rs rt s
  | .addu rd rs rt => Sys2Proof.Machine.execAddu rd rs rt s
  | .sub rd rs rt => Sys2Proof.Machine.execSub rd rs rt s
  | .subu rd rs rt => Sys2Proof.Machine.execSubu rd rs rt s
  | .mult rd rs rt => Sys2Proof.Machine.execMult rd rs rt s
  | .and rd rs rt => Sys2Proof.Machine.execAnd rd rs rt s
  | .or rd rs rt => Sys2Proof.Machine.execOr rd rs rt s
  | .addi rt rs lit => Sys2Proof.Machine.execAddi rt rs lit s
  | .andi rt rs lit => Sys2Proof.Machine.execAndi rt rs lit s
  | .ori rt rs lit => Sys2Proof.Machine.execOri rt rs lit s
  | .j lit => Sys2Proof.Machine.execJ lit s
  | .beq rs rt lit => Sys2Proof.Machine.execBeq rs rt lit s
  | .bne rs rt lit => Sys2Proof.Machine.execBne rs rt lit s
  | .blez rs rt lit => Sys2Proof.Machine.execBlez rs rt lit s
  | .bgtz rs rt lit => Sys2Proof.Machine.execBgtz rs rt lit s

end Sys2Proof.Machine
end

