-- ==== Sys2Proof/Machine/Cycle.lean ====
section
/-! DEFINITION. The instruction cycle of spec/10_state.md R36, given the state and one request, and what a step does with
the host's request stream. -/

namespace Sys2Proof.Machine

/-- Step 4 of R36, with step 5: execute the decoded instruction, or take the fault the front end found. -/
def executeOrFault (d : Decoded) (s : State) : Result :=
  match d with
  | .exec i => exec i s
  | .fault r => .next (s.takeFault r)

/-- One cycle (R36): reset `x[0]`, decode, execute or report. A line of more than 63 characters is not a request and is
refused (R90, U4; log entry 5). -/
def cycle (req : Request) (s : State) : Result :=
  if req.wf then executeOrFault (frontEnd req) s.zeroReset else .refused .lineTooLong

/-- The core takes the next request of the host's stream, in the host's order and whatever the pc holds (R32, R44), and
performs one cycle on it; while none is presented it holds its state (R187; log entry 2). -/
def nextCycle (s : State) : Result :=
  match s.requests with
  | [] => .next s
  | req :: rest => cycle req { s with requests := rest }

/-- The host presents the instruction word whose low `nbits` bits are those of `w` and whose other bits are 0. -/
def State.presentTableWord (s : State) (nbits w : Nat) : State :=
  s.present (.word (BitVec.ofNat 64 (w % 2 ^ nbits)))

end Sys2Proof.Machine
end

