-- ==== Sys2Proof/Machine/Step.lean ====
section
/-! DEFINITION. One step of the machine, and where it fetches its next instruction from. -/

namespace Sys2Proof.Machine

/-- One step: one instruction cycle on the request the host presents (spec/10_state.md R36, R44). -/
def step (s : State) : Host.Outcome State Fault Refusal := nextCycle s

/-- The state in which the very next step runs the given instruction word: the host presents it (R209; log entry 6). -/
def State.withFetchWord (s : State) (nbits w : Nat) : State := s.presentTableWord nbits w

end Sys2Proof.Machine
end

