-- ==== Sys2Proof/Machine/Render.lean ====
section
/-! DEFINITION. The trace record as read off an instruction word, and the text a host prints for the result of a cycle
(spec/30_encoding.md R102, R103; spec/60_exceptions.md R188). No step reads anything of this file. -/

namespace Sys2Proof.Machine

/-- The fields of a word that make up its trace record, by the format its `op` selects (R103). -/
def recordOfWord (iw : InstrWord) : Trace :=
  let f := Fields.ofWord iw
  if f.op = 0x00#6 then .r f.op (regOfBits f.rs) (regOfBits f.rt) (regOfBits f.rd) f.shamt f.funct
  else if f.op = 0x08#6 ∨ f.op = 0x0C#6 ∨ f.op = 0x0D#6 then .i f.op (regOfBits f.rs) (regOfBits f.rt) f.lit
  else .j f.op f.lit

/-- Fields separated by single spaces (R102). -/
def joinFields : List (List Char) → List Char
  | [] => []
  | [a] => a
  | a :: rest => a ++ ' ' :: joinFields rest

/-- The fields of a record in order: opcode, indices, shamt and funct unsigned, immediate and address signed (R102). -/
def traceFields : Trace → List (List Char)
  | .r opcode rs rt rd shamt funct =>
    [natText opcode.toNat, natText rs.val, natText rt.val, natText rd.val, natText shamt.toNat, natText funct.toNat]
  | .i opcode rs rt immediate => [natText opcode.toNat, natText rs.val, natText rt.val, litText immediate]
  | .j opcode address => [natText opcode.toNat, litText address]

/-- The trace line of a record (R102). -/
def traceLine (t : Trace) : List Char := "EXECUTE -> ".toList ++ joinFields (traceFields t)

/-- The one line a host prints for a fault: `ERRO:` and a message whose text the spec does not give (R188; log entry 8). -/
def errorLine (r : FaultReport) : List Char := "ERRO:".toList ++ (Config.errorMessage r).filter (· != '\n')

/-- The lines a host prints for the result on the output port: one of the two after a cycle (R188), none before the
first (R201). -/
def Outputs.lines (o : Outputs) : List (List Char) :=
  (o.trace.map traceLine).toList ++ (o.err.map errorLine).toList

end Sys2Proof.Machine
end

