-- ==== Sys2Proof/Machine/SourceForm.lean ====
section
/-! DEFINITION. The source program's own way to move the pc, the "compensating decrement": a redirect writes
`target - 4`, an unknown instruction takes 4 off, and the enclosing cycle always adds 4 (spec/10_state.md R33, R35;
spec/90_conflicts.md C2). The machine uses the override form instead; that both give the same pc is a statement. -/

namespace Sys2Proof.Machine

/-- A branch of the source program: `target - 4` when the condition holds, else the pc as it is (R155 d). -/
def sourceBranch (taken : Bool) (lit : Word) (s : State) : Word := bif taken then lit - 4 else s.pc

/-- The pc the source program's executor, or its error path, leaves for the enclosing cycle's `+4`. -/
def sourcePc (d : Decoded) (s : State) : Word :=
  match d with
  | .fault (.unknownInstruction _) => s.pc - 4
  | .fault .noMnemonic | .fault .tooManyOperands | .fault (.argumentCountMismatch _ _)
  | .fault .registerNotFound | .fault .invalidImmediate | .fault .invalidAddress => s.pc
  | .exec (.j lit) => lit - 4
  | .exec (.beq rs rt lit) => sourceBranch (condEqual (s.readReg rs) (s.readReg rt)) lit s
  | .exec (.bne rs rt lit) => sourceBranch (condNotEqual (s.readReg rs) (s.readReg rt)) lit s
  | .exec (.blez rs rt lit) => sourceBranch (condLessOrEqual (s.readReg rs) (s.readReg rt)) lit s
  | .exec (.bgtz rs rt lit) => sourceBranch (condGreater (s.readReg rs) (s.readReg rt)) lit s
  | .exec (.add _ _ _) | .exec (.addu _ _ _) | .exec (.sub _ _ _) | .exec (.subu _ _ _) | .exec (.mult _ _ _)
  | .exec (.and _ _ _) | .exec (.or _ _ _)
  | .exec (.addi _ _ _) | .exec (.andi _ _ _) | .exec (.ori _ _ _) => s.pc

end Sys2Proof.Machine
end

