-- ==== Sys2Proof/Safety.lean ====
section
/-! DEFINITION. What counts as a safe run, in the terms the statements use: the host keeps its contract, and the output
port never says anything untrue of the cycle that filled it (spec/00_scope.md R9; spec/30_encoding.md R81, R97, R100;
spec/60_exceptions.md R170 to R175). -/

namespace Sys2Proof.Machine

/-- The host keeps its contract: no pending line is longer than 63 characters (R90, R209). -/
def State.inContract (s : State) : Bool := s.requests.all Request.wf

/-- The trace record of an instruction: a function of the instruction alone (R100), the branches with the J-format record
and without their registers (R101). -/
def recordOf : Instr → Trace
  | .add rd rs rt => .r 0x00#6 rs rt rd 0 0x20#6
  | .addu rd rs rt => .r 0x00#6 rs rt rd 0 0x21#6
  | .sub rd rs rt => .r 0x00#6 rs rt rd 0 0x22#6
  | .subu rd rs rt => .r 0x00#6 rs rt rd 0 0x23#6
  | .mult rd rs rt => .r 0x00#6 rs rt rd 0 0x18#6
  | .and rd rs rt => .r 0x00#6 rs rt rd 0 0x24#6
  | .or rd rs rt => .r 0x00#6 rs rt rd 0 0x25#6
  | .addi rt rs lit => .i 0x08#6 rs rt lit
  | .andi rt rs lit => .i 0x0C#6 rs rt lit
  | .ori rt rs lit => .i 0x0D#6 rs rt lit
  | .j lit => .j 0x02#6 lit
  | .beq _ _ lit => .j 0x04#6 lit
  | .bne _ _ lit => .j 0x05#6 lit
  | .blez _ _ lit => .j 0x06#6 lit
  | .bgtz _ _ lit => .j 0x07#6 lit

/-- A record some instruction can emit: `opcode`, `shamt` and `funct` are values of the maps of R79 and R80. -/
def traceLegal : Trace → Bool
  | .r opcode _ _ _ shamt funct =>
    opcode = 0x00#6 && shamt = 0 && [0x18#6, 0x20#6, 0x21#6, 0x22#6, 0x23#6, 0x24#6, 0x25#6].contains funct
  | .i opcode _ _ _ => [0x08#6, 0x0C#6, 0x0D#6].contains opcode
  | .j opcode _ => [0x02#6, 0x04#6, 0x05#6, 0x06#6, 0x07#6].contains opcode

/-- The fifteen mnemonics of R1, in the order of that rule. -/
def mnemonics : List (List Char) :=
  ["ADD", "ADDI", "ADDU", "SUB", "SUBU", "J", "MULT", "AND", "OR", "ANDI", "ORI", "BEQ", "BNE", "BLEZ", "BGTZ"].map
    String.toList

/-- A report that tells the truth: an unknown mnemonic is a non-empty run of non-`WS` characters outside the closed set
(R91, R174), an unknown word is illegal (R81), a count mismatch expects 1 or 3, found at most 3 and found another number
(R175). -/
def reportTruthful : FaultReport → Bool
  | .unknownInstruction (.mnemonic m) => !m.isEmpty && m.all (fun c => !isWs c) && !mnemonics.contains m
  | .unknownInstruction (.word iw) => !legalWord iw
  | .argumentCountMismatch expected actual =>
    (expected = 1 || expected = 3) && actual ≤ Config.maxOperands && actual ≠ expected
  | .noMnemonic | .tooManyOperands | .registerNotFound | .invalidImmediate | .invalidAddress => true

/-- The output port never carries a trace and a fault together (R9), and what it carries is legal or true. -/
def Outputs.legal (o : Outputs) : Bool :=
  match o.trace, o.err with
  | none, none => true
  | some t, none => traceLegal t
  | none, some r => reportTruthful r
  | some _, some _ => false

/-- The invariant of the machine: the host's contract holds of every pending request, and the output port is legal. -/
abbrev State.Inv (s : State) : Prop := s.inContract = true ∧ s.outputs.legal = true

/-- `k` steps, one cycle after another (R44, R58), stopping at the first refusal. -/
def run : Nat → State → Result
  | 0, s => .next s
  | k + 1, s =>
    match step s with
    | .next t => run k t
    | .fault r => .fault r
    | .refused r => .refused r

/-- A safe run of `k` steps: it stops nowhere, and its last state meets the invariant. -/
def SafeRun (k : Nat) (s : State) : Prop := ∃ t : State, run k s = .next t ∧ t.Inv

/-- Two states that agree on every register but `x[0]` and on the pending requests; the pc, `x[0]` and the outputs may
differ. -/
def SameButPcAndZero (s t : State) : Prop :=
  (∀ i : Reg, i ≠ 0 → s.readReg i = t.readReg i) ∧ s.requests = t.requests

end Sys2Proof.Machine
end

