-- ==== Sys2Proof/Certificates/Slice0/Obligations.lean ====
section
/-! DEFINITION. The statements for the provers. Where a docstring says "the spec's own decision D<n>", the clause rests on
spec/92_eei_decisions.md and not on the spec's source; where it says "log entry <n>", on a choice of this model.
In the statements about `exec`, `s` is the state after step 1 of the cycle (spec/10_state.md R36): the reset of `x[0]` is
in `step`, and StepRunsDecodedInstruction says so. -/

open Sys2Proof Sys2Proof.Machine

/-! ## The R-format -/

/-- R121. That signed overflow wraps is the spec's own decision D7. -/
def Obligations.AddWritesSignedSum : Prop :=
  ∀ (rd rs rt : Reg) (s : State), ∃ t, exec (.add rd rs rt) s = .next t ∧
    t.readReg rd = bv32 (signed (s.readReg rs) + signed (s.readReg rt)) ∧
    (∀ i, i ≠ rd → t.readReg i = s.readReg i) ∧ t.pc = s.pc + 4 ∧
    t.outputs = ⟨some (.r 0x00#6 rs rt rd 0#5 0x20#6), none⟩ ∧ t.requests = s.requests

/-- R122, whole: operands, encoding, effect, no fault at execution, the bits `ADD` gives, the worked example. -/
def Obligations.AdduWritesUnsignedSum : Prop :=
  (∀ rd rs rt : Reg, encode (.addu rd rs rt) =
    0b000000#6 ++ regBits rs ++ regBits rt ++ regBits rd ++ 0b00000#5 ++ 0b100001#6 ++ 0#32) ∧
  (∀ (rd rs rt : Reg) (s : State), ∃ t, exec (.addu rd rs rt) s = .next t ∧
    t.readReg rd = bv32 (unsigned (s.readReg rs) + unsigned (s.readReg rt)) ∧
    (∀ i, i ≠ rd → t.readReg i = s.readReg i) ∧ t.pc = s.pc + 4 ∧
    t.outputs = ⟨some (.r 0x00#6 rs rt rd 0#5 0x21#6), none⟩ ∧ t.requests = s.requests) ∧
  (∀ a b : Word, bv32 (unsigned a + unsigned b) = bv32 (signed a + signed b)) ∧
  encode (.addu 10 8 9) = 0x0109502100000000#64 ∧
  traceLine (.r 0x00#6 8 9 10 0#5 0x21#6) = "EXECUTE -> 0 8 9 10 0 33".toList ∧
  bv32 (unsigned 0xFFFFFFFF#32 + unsigned 2#32) = 1#32

/-- R123. That signed overflow wraps is the spec's own decision D7. -/
def Obligations.SubWritesSignedDifference : Prop :=
  ∀ (rd rs rt : Reg) (s : State), ∃ t, exec (.sub rd rs rt) s = .next t ∧
    t.readReg rd = bv32 (signed (s.readReg rs) - signed (s.readReg rt)) ∧
    (∀ i, i ≠ rd → t.readReg i = s.readReg i) ∧ t.pc = s.pc + 4 ∧
    t.outputs = ⟨some (.r 0x00#6 rs rt rd 0#5 0x22#6), none⟩ ∧ t.requests = s.requests

/-- R124, whole: operands, encoding, effect, no fault at execution, the bits `SUB` gives, the worked example. -/
def Obligations.SubuWritesUnsignedDifference : Prop :=
  (∀ rd rs rt : Reg, encode (.subu rd rs rt) =
    0b000000#6 ++ regBits rs ++ regBits rt ++ regBits rd ++ 0b00000#5 ++ 0b100011#6 ++ 0#32) ∧
  (∀ (rd rs rt : Reg) (s : State), ∃ t, exec (.subu rd rs rt) s = .next t ∧
    t.readReg rd = bv32 (unsigned (s.readReg rs) - unsigned (s.readReg rt)) ∧
    (∀ i, i ≠ rd → t.readReg i = s.readReg i) ∧ t.pc = s.pc + 4 ∧
    t.outputs = ⟨some (.r 0x00#6 rs rt rd 0#5 0x23#6), none⟩ ∧ t.requests = s.requests) ∧
  (∀ a b : Word, bv32 (unsigned a - unsigned b) = bv32 (signed a - signed b)) ∧
  encode (.subu 2 4 5) = 0x0085102300000000#64 ∧
  traceLine (.r 0x00#6 4 5 2 0#5 0x23#6) = "EXECUTE -> 0 4 5 2 0 35".toList ∧
  bv32 (unsigned 3#32 - unsigned 5#32) = 0xFFFFFFFE#32

/-- R125. That a product which does not fit is truncated is the spec's own decision D7. -/
def Obligations.MultWritesLowProduct : Prop :=
  ∀ (rd rs rt : Reg) (s : State), ∃ t, exec (.mult rd rs rt) s = .next t ∧
    t.readReg rd = bv32 (signed (s.readReg rs) * signed (s.readReg rt)) ∧
    (∀ i, i ≠ rd → t.readReg i = s.readReg i) ∧ t.pc = s.pc + 4 ∧
    t.outputs = ⟨some (.r 0x00#6 rs rt rd 0#5 0x18#6), none⟩ ∧ t.requests = s.requests

/-- R126, whole: operands, encoding, effect bit by bit, no fault at execution, the worked example. -/
def Obligations.AndWritesBitwiseAnd : Prop :=
  (∀ rd rs rt : Reg, encode (.and rd rs rt) =
    0b000000#6 ++ regBits rs ++ regBits rt ++ regBits rd ++ 0b00000#5 ++ 0b100100#6 ++ 0#32) ∧
  (∀ (rd rs rt : Reg) (s : State), ∃ t, exec (.and rd rs rt) s = .next t ∧
    (∀ k, (t.readReg rd).getLsbD k = ((s.readReg rs).getLsbD k && (s.readReg rt).getLsbD k)) ∧
    (∀ i, i ≠ rd → t.readReg i = s.readReg i) ∧ t.pc = s.pc + 4 ∧
    t.outputs = ⟨some (.r 0x00#6 rs rt rd 0#5 0x24#6), none⟩ ∧ t.requests = s.requests) ∧
  encode (.and 18 16 17) = 0x0211902400000000#64 ∧
  traceLine (.r 0x00#6 16 17 18 0#5 0x24#6) = "EXECUTE -> 0 16 17 18 0 36".toList ∧
  0xF0F0F0F0#32 &&& 0x0FF00FF0#32 = 0x00F000F0#32

/-- R127, whole: operands, encoding, effect bit by bit, no fault at execution, the worked example. -/
def Obligations.OrWritesBitwiseOr : Prop :=
  (∀ rd rs rt : Reg, encode (.or rd rs rt) =
    0b000000#6 ++ regBits rs ++ regBits rt ++ regBits rd ++ 0b00000#5 ++ 0b100101#6 ++ 0#32) ∧
  (∀ (rd rs rt : Reg) (s : State), ∃ t, exec (.or rd rs rt) s = .next t ∧
    (∀ k, (t.readReg rd).getLsbD k = ((s.readReg rs).getLsbD k || (s.readReg rt).getLsbD k)) ∧
    (∀ i, i ≠ rd → t.readReg i = s.readReg i) ∧ t.pc = s.pc + 4 ∧
    t.outputs = ⟨some (.r 0x00#6 rs rt rd 0#5 0x25#6), none⟩ ∧ t.requests = s.requests) ∧
  encode (.or 19 16 17) = 0x0211982500000000#64 ∧
  traceLine (.r 0x00#6 16 17 19 0#5 0x25#6) = "EXECUTE -> 0 16 17 19 0 37".toList ∧
  0xF0F0F0F0#32 ||| 0x0FF00FF0#32 = 0xFFF0FFF0#32

/-- R129, R130, which the spec marks as derived: `ADD` and `ADDU` leave states that differ in the trace only, so do `SUB`
and `SUBU`, and the low 32 bits of a product do not depend on the reading. -/
def Obligations.SignednessOnlyShowsInTrace : Prop :=
  ∀ (rd rs rt : Reg) (s t u : State) (o : Outputs),
    (exec (.add rd rs rt) s = .next t → exec (.addu rd rs rt) s = .next u →
      { t with outputs := o } = { u with outputs := o }) ∧
    (exec (.sub rd rs rt) s = .next t → exec (.subu rd rs rt) s = .next u →
      { t with outputs := o } = { u with outputs := o }) ∧
    (exec (.mult rd rs rt) s = .next t →
      t.readReg rd = bv32 (unsigned (s.readReg rs) * unsigned (s.readReg rt)))

/-! ## The I-format -/

/-- R141. That signed overflow wraps is the spec's own decision D7. -/
def Obligations.AddiWritesSignedSum : Prop :=
  ∀ (rt rs : Reg) (lit : Word) (s : State), ∃ t, exec (.addi rt rs lit) s = .next t ∧
    t.readReg rt = bv32 (signed (s.readReg rs) + signed lit) ∧
    (∀ i, i ≠ rt → t.readReg i = s.readReg i) ∧ t.pc = s.pc + 4 ∧
    t.outputs = ⟨some (.i 0x08#6 rs rt lit), none⟩ ∧ t.requests = s.requests

/-- R142, whole: operands, encoding, effect bit by bit (all 32 bits of the literal take part), no fault at execution, the
worked examples. -/
def Obligations.AndiWritesBitwiseAnd : Prop :=
  (∀ (rt rs : Reg) (lit : Word), encode (.andi rt rs lit) =
    0b001100#6 ++ regBits rs ++ regBits rt ++ 0b00000#5 ++ 0b00000#5 ++ 0b000000#6 ++ lit) ∧
  (∀ (rt rs : Reg) (lit : Word) (s : State), ∃ t, exec (.andi rt rs lit) s = .next t ∧
    (∀ k, (t.readReg rt).getLsbD k = ((s.readReg rs).getLsbD k && lit.getLsbD k)) ∧
    (∀ i, i ≠ rt → t.readReg i = s.readReg i) ∧ t.pc = s.pc + 4 ∧
    t.outputs = ⟨some (.i 0x0C#6 rs rt lit), none⟩ ∧ t.requests = s.requests) ∧
  encode (.andi 10 9 255#32) = 0x312A0000000000FF#64 ∧ encode (.andi 10 9 0xFFFFFFF0#32) = 0x312A0000FFFFFFF0#64 ∧
  traceLine (.i 0x0C#6 9 10 255#32) = "EXECUTE -> 12 9 10 255".toList ∧
  traceLine (.i 0x0C#6 9 10 0xFFFFFFF0#32) = "EXECUTE -> 12 9 10 -16".toList ∧
  0x12345678#32 &&& 255#32 = 0x78#32 ∧ 0x12345678#32 &&& 0xFFFFFFF0#32 = 0x12345670#32

/-- R143, whole: operands, encoding, effect bit by bit (all 32 bits of the literal take part), no fault at execution, the
worked examples. -/
def Obligations.OriWritesBitwiseOr : Prop :=
  (∀ (rt rs : Reg) (lit : Word), encode (.ori rt rs lit) =
    0b001101#6 ++ regBits rs ++ regBits rt ++ 0b00000#5 ++ 0b00000#5 ++ 0b000000#6 ++ lit) ∧
  (∀ (rt rs : Reg) (lit : Word) (s : State), ∃ t, exec (.ori rt rs lit) s = .next t ∧
    (∀ k, (t.readReg rt).getLsbD k = ((s.readReg rs).getLsbD k || lit.getLsbD k)) ∧
    (∀ i, i ≠ rt → t.readReg i = s.readReg i) ∧ t.pc = s.pc + 4 ∧
    t.outputs = ⟨some (.i 0x0D#6 rs rt lit), none⟩ ∧ t.requests = s.requests) ∧
  encode (.ori 11 9 4096#32) = 0x352B000000001000#64 ∧ encode (.ori 11 0 0xFFFFFFFF#32) = 0x340B0000FFFFFFFF#64 ∧
  traceLine (.i 0x0D#6 0 11 0xFFFFFFFF#32) = "EXECUTE -> 13 0 11 -1".toList ∧
  0x12345678#32 ||| 4096#32 = 0x12345678#32 ∧ 0#32 ||| 0xFFFFFFFF#32 = 0xFFFFFFFF#32

/-! ## Control transfer -/

/-- R150. The pc becomes the literal at every literal; no register changes, `$ra` included. That a target needs no
alignment is the spec's own decision D5. -/
def Obligations.JumpSetsPcToLiteral : Prop :=
  ∀ (lit : Word) (s : State), ∃ t, exec (.j lit) s = .next t ∧ t.pc = lit ∧
    (∀ i, t.readReg i = s.readReg i) ∧ t.outputs = ⟨some (.j 0x02#6 lit), none⟩ ∧ t.requests = s.requests

/-- R156, whole: operands, encoding, condition, both ends of the pc, the trace taken or not, no fault, the worked example. -/
def Obligations.BeqBranchesWhenEqual : Prop :=
  (∀ (rs rt : Reg) (lit : Word), encode (.beq rs rt lit) =
    0b000100#6 ++ regBits rs ++ regBits rt ++ 0b00000#5 ++ 0b00000#5 ++ 0b000000#6 ++ lit) ∧
  (∀ (rs rt : Reg) (lit : Word) (s : State), ∃ t, exec (.beq rs rt lit) s = .next t ∧
    t.pc = (if s.readReg rs = s.readReg rt then lit else s.pc + 4) ∧
    (∀ i, t.readReg i = s.readReg i) ∧ t.outputs = ⟨some (.j 0x04#6 lit), none⟩ ∧ t.requests = s.requests) ∧
  encode (.beq 16 16 12#32) = 0x121000000000000C#64 ∧
  traceLine (.j 0x04#6 12#32) = "EXECUTE -> 4 12".toList

/-- R157, whole: operands, encoding, condition, both ends of the pc, the trace taken or not, no fault, the worked example. -/
def Obligations.BneBranchesWhenDifferent : Prop :=
  (∀ (rs rt : Reg) (lit : Word), encode (.bne rs rt lit) =
    0b000101#6 ++ regBits rs ++ regBits rt ++ 0b00000#5 ++ 0b00000#5 ++ 0b000000#6 ++ lit) ∧
  (∀ (rs rt : Reg) (lit : Word) (s : State), ∃ t, exec (.bne rs rt lit) s = .next t ∧
    t.pc = (if s.readReg rs ≠ s.readReg rt then lit else s.pc + 4) ∧
    (∀ i, t.readReg i = s.readReg i) ∧ t.outputs = ⟨some (.j 0x05#6 lit), none⟩ ∧ t.requests = s.requests) ∧
  encode (.bne 8 0 64#32) = 0x1500000000000040#64 ∧
  traceLine (.j 0x05#6 64#32) = "EXECUTE -> 5 64".toList

/-- R158. That the comparison is signed is the spec's own decision D8. -/
def Obligations.BlezBranchesWhenLessOrEqual : Prop :=
  ∀ (rs rt : Reg) (lit : Word) (s : State), ∃ t, exec (.blez rs rt lit) s = .next t ∧
    t.pc = (if signed (s.readReg rs) ≤ signed (s.readReg rt) then lit else s.pc + 4) ∧
    (∀ i, t.readReg i = s.readReg i) ∧ t.outputs = ⟨some (.j 0x06#6 lit), none⟩ ∧ t.requests = s.requests

/-- R159. That the comparison is signed is the spec's own decision D8. -/
def Obligations.BgtzBranchesWhenGreater : Prop :=
  ∀ (rs rt : Reg) (lit : Word) (s : State), ∃ t, exec (.bgtz rs rt lit) s = .next t ∧
    t.pc = (if signed (s.readReg rs) > signed (s.readReg rt) then lit else s.pc + 4) ∧
    (∀ i, t.readReg i = s.readReg i) ∧ t.outputs = ⟨some (.j 0x07#6 lit), none⟩ ∧ t.requests = s.requests

/-- R160, which the spec marks as derived: of `BEQ` and `BNE`, and of `BLEZ` and `BGTZ`, exactly one redirects; with the
same register twice `BEQ` and `BLEZ` always do, `BNE` and `BGTZ` never; the swapped operands give less-than and
greater-or-equal. -/
def Obligations.BranchPairsAreComplements : Prop :=
  ∀ (rs rt : Reg) (lit : Word) (s eq ne le gt : State),
    exec (.beq rs rt lit) s = .next eq → exec (.bne rs rt lit) s = .next ne →
    exec (.blez rs rt lit) s = .next le → exec (.bgtz rs rt lit) s = .next gt →
    ((eq.pc = lit ∧ ne.pc = s.pc + 4) ∨ (eq.pc = s.pc + 4 ∧ ne.pc = lit)) ∧
    ((le.pc = lit ∧ gt.pc = s.pc + 4) ∨ (le.pc = s.pc + 4 ∧ gt.pc = lit)) ∧
    (rs = rt → eq.pc = lit ∧ ne.pc = s.pc + 4 ∧ le.pc = lit ∧ gt.pc = s.pc + 4) ∧
    (∀ lt ge, exec (.bgtz rt rs lit) s = .next lt → exec (.blez rt rs lit) s = .next ge →
      lt.pc = (if signed (s.readReg rs) < signed (s.readReg rt) then lit else s.pc + 4) ∧
      ge.pc = (if signed (s.readReg rs) ≥ signed (s.readReg rt) then lit else s.pc + 4))

/-- R33, C2, D2, D12: the pc after a cycle is what the source program's compensating decrement gives, its executor's pc
plus the enclosing cycle's 4, for every instruction and every fault, at every pc. -/
def Obligations.CompensatingDecrementAgrees : Prop :=
  ∀ (s t : State) (req : Request) (rest : List Request),
    s.requests = req :: rest → step s = .next t → t.pc = sourcePc (frontEnd req) s.zeroReset + 4

/-! ## The cycle -/

/-- R36: a step on a request that decodes to an instruction is `exec` of it on the state after step 1 of the cycle, with
the request taken off the stream; in particular for the encoded word of every instruction, presented as
`State.withFetchWord` presents it (log entry 6). -/
def Obligations.StepRunsDecodedInstruction : Prop :=
  (∀ (s : State) (req : Request) (rest : List Request) (i : Instr),
    s.requests = req :: rest → req.wf = true → frontEnd req = .exec i →
    step s = exec i ({ s with requests := rest } : State).zeroReset) ∧
  (∀ (s : State) (i : Instr),
    decodeTableWord 64 (encode i).toNat = some i ∧
    step (s.withFetchWord 64 (encode i).toNat) = exec i s.zeroReset)

/-- R171, whole: the effect of a fault, common to all seven kinds. That the reset of `x[0]` and the advance of the pc also
happen for the two tokenizer faults is the spec's own decisions D10 and D11. -/
def Obligations.FaultCycleOnlyReports : Prop :=
  ∀ (s : State) (req : Request) (rest : List Request) (r : FaultReport),
    s.requests = req :: rest → req.wf = true → frontEnd req = .fault r →
    ∃ t, step s = .next t ∧ t.readReg 0 = 0 ∧ (∀ i, i ≠ 0 → t.readReg i = s.readReg i) ∧
      t.pc = (match r with | .unknownInstruction _ => s.pc | _ => s.pc + 4) ∧
      t.outputs = ⟨none, some r⟩ ∧ t.requests = rest

/-- R9, R36, R44: while the host keeps its contract a step on a presented request always completes, takes exactly that
request, and exactly one of trace and err is present. -/
def Obligations.CycleCompletesWithOneResult : Prop :=
  ∀ s : State, s.inContract = true → s.requests ≠ [] →
    ∃ t, step s = .next t ∧ t.requests = s.requests.tail ∧ (t.outputs.trace.isSome ≠ t.outputs.err.isSome)

/-- R90, U4 (the spec's own decision D20), R171: the machine never stops with a fault, and is refused only on a line of more
than 63 characters. -/
def Obligations.OnlyLongLinesAreRefused : Prop :=
  ∀ s : State, (∀ f, step s ≠ .fault f) ∧
    (∀ r, step s = .refused r ↔
      r = .lineTooLong ∧ ∃ text rest, s.requests = .line text :: rest ∧ 63 < text.length)

/-- R187; log entry 2 (the model's choice of what a step is then): while no request is presented the core holds its
state. -/
def Obligations.NoRequestHoldsState : Prop :=
  ∀ s : State, s.requests = [] → step s = .next s

/-- R100 and R101, whole: an executing cycle emits exactly one record, of its format's shape, a function of the
instruction alone, the branches without their registers and taken or not; a faulting cycle emits none. -/
def Obligations.TraceIsFunctionOfInstruction : Prop :=
  ∀ (s : State) (req : Request) (rest : List Request), s.requests = req :: rest → req.wf = true →
    (∀ i, frontEnd req = .exec i → ∃ t, step s = .next t ∧ t.outputs = ⟨some (recordOf i), none⟩) ∧
    (∀ r, frontEnd req = .fault r → ∃ t, step s = .next t ∧ t.outputs = ⟨none, some r⟩)

/-- R103, which the spec marks as derived: the record an instruction emits is read off the fields of its word. -/
def Obligations.TraceIsFieldsOfWord : Prop :=
  ∀ (i : Instr) (s t : State), exec i s = .next t → t.outputs.trace = some (recordOfWord (encode i))

/-- R31, R33, R35, R174: where the pc goes, by what the cycle put on its output port: an R or I record, 4 further; a jump
record, its address; a branch record, its address or 4 further; `UnknownInstruction`, nowhere; any other fault, 4
further (for the tokenizer faults the spec's own decision D11). -/
def Obligations.PcMovesOnlyAsReported : Prop :=
  ∀ (s t : State), s.requests ≠ [] → step s = .next t →
    (∀ op rs rt rd sh fn, t.outputs.trace = some (.r op rs rt rd sh fn) → t.pc = s.pc + 4) ∧
    (∀ op rs rt lit, t.outputs.trace = some (.i op rs rt lit) → t.pc = s.pc + 4) ∧
    (∀ lit, t.outputs.trace = some (.j 0x02#6 lit) → t.pc = lit) ∧
    (∀ op lit, t.outputs.trace = some (.j op lit) → t.pc = lit ∨ (op ≠ 0x02#6 ∧ t.pc = s.pc + 4)) ∧
    (∀ info, t.outputs.err = some (.unknownInstruction info) → t.pc = s.pc) ∧
    (∀ r, t.outputs.err = some r → (∀ info, r ≠ .unknownInstruction info) → t.pc = s.pc + 4)

/-- R23: a cycle changes at most one register besides the reset of `x[0]`, namely the destination its record names; a
cycle that emits a J-format record or a fault leaves every register but `x[0]`, and `x[0] = 0`. -/
def Obligations.OnlyTheDestinationChanges : Prop :=
  ∀ (s t : State), s.requests ≠ [] → step s = .next t →
    (∀ op rs rt rd sh fn, t.outputs.trace = some (.r op rs rt rd sh fn) →
      (∀ i, i ≠ rd → i ≠ 0 → t.readReg i = s.readReg i) ∧ (rd ≠ 0 → t.readReg 0 = 0)) ∧
    (∀ op rs rt lit, t.outputs.trace = some (.i op rs rt lit) →
      (∀ i, i ≠ rt → i ≠ 0 → t.readReg i = s.readReg i) ∧ (rt ≠ 0 → t.readReg 0 = 0)) ∧
    ((∃ op lit, t.outputs.trace = some (.j op lit)) ∨ t.outputs.err.isSome = true →
      (∀ i, i ≠ 0 → t.readReg i = s.readReg i) ∧ t.readReg 0 = 0)

/-- R25, R27 b: whatever `x[0]` holds between cycles, no instruction can read it: the next cycle's whole outcome is the
same. -/
def Obligations.ZeroRegisterIsNeverReadBack : Prop :=
  ∀ (s : State) (v : Word), s.requests ≠ [] → step (s.writeReg 0 v) = step s

/-- R24, R25, R27 a: a write to `x[0]` is performed and is visible between cycles; the next cycle leaves 0 there
unless its record names `$zero` as its destination again. `ADDI $zero, $zero, v` from any state, then any request. -/
def Obligations.ZeroRegisterWriteIsVisible : Prop :=
  ∀ (s : State) (v : Word) (next : Request) (rest : List Request),
    s.requests = .word (encode (.addi 0 0 v)) :: next :: rest →
    ∃ t, step s = .next t ∧ t.readReg 0 = v ∧
      (∀ u, step t = .next u → u.readReg 0 ≠ 0 →
        (∃ rs rt sh fn, u.outputs.trace = some (.r 0x00#6 rs rt 0 sh fn)) ∨
        (∃ op rs lit, u.outputs.trace = some (.i op rs 0 lit)))

/-- R32 (the spec's own decision D23), R9, R176: a step reads neither the pc nor the outputs of earlier cycles: from two
states that differ in these only, the outcomes differ at most in the pc. -/
def Obligations.PcAndOutputsAreNeverRead : Prop :=
  ∀ (s t : State) (pc : Word) (o : Outputs), s.requests ≠ [] → step s = .next t →
    ∃ u, step { s with pc := pc, outputs := o } = .next u ∧ u = { t with pc := u.pc }

/-- R25, R32, R41, R43: two runs of any length that start with the same registers (`x[0]` apart) and the same requests
stay so, whatever the pc, `x[0]` and the outputs were: neither the pc nor anything left by an earlier fault selects what
runs or what it computes. -/
def Obligations.RunsIgnorePcZeroAndOutputs : Prop :=
  ∀ (k : Nat) (s s' t : State), SameButPcAndZero s s' → run k s = .next t →
    ∃ t', run k s' = .next t' ∧ SameButPcAndZero t t' ∧
      (0 < k → s.requests ≠ [] → t.outputs = t'.outputs ∧ t.readReg 0 = t'.readReg 0)

/-- The invariant is kept by every step: the host's contract on the pending requests, and an output port that never
carries both results, whose record some instruction emits and whose report is true (R9, R81, R100, R174, R175). -/
def Obligations.StepKeepsInvariant : Prop :=
  ∀ s t : State, s.Inv → step s = .next t → t.Inv

/-- The invariant holds after reset, on which an empty request stream is the model's choice (log entry 1). -/
def Obligations.ResetMeetsInvariant : Prop := State.reset.Inv

/-- R44, R189: from every state that meets the invariant, a run of any length stops nowhere, keeps the invariant and has
taken exactly the first `k` requests, in the host's order. -/
def Obligations.RunsInContractNeverStop : Prop :=
  ∀ (k : Nat) (s : State), s.Inv →
    ∃ t, run k s = .next t ∧ t.Inv ∧ t.requests = s.requests.drop k

/-- R201, whole: the state after reset and what the outputs carry until the first cycle completes. -/
def Obligations.ResetStateIsZero : Prop :=
  (∀ i, State.reset.readReg i = 0x00000000#32) ∧ State.reset.pc = 0x00000000#32 ∧
    State.reset.outputs.trace = none ∧ State.reset.outputs.err = none

/-! ## The word front end -/

/-- R83 (which the spec marks as derived): decoding an encoded instruction gives it back, for every instruction. -/
def Obligations.DecodeOfEncodedWord : Prop :=
  ∀ i : Instr, decodeWord (encode i) = .exec i

/-- R83: every legal word is the encoding of the instruction it decodes to. -/
def Obligations.EncodeOfDecodedWord : Prop :=
  ∀ (iw : InstrWord) (i : Instr), decodeWord iw = .exec i → encode i = iw

/-- R84 (which the spec marks as derived): a word spells the instruction of a row exactly when `iw & mask = match`, and no
two rows match the same word. -/
def Obligations.MatchAndMaskTableDecodes : Prop :=
  (∀ row ∈ opcodeRows, ∀ iw : InstrWord,
    iw &&& row.mask = row.pattern ↔ ∃ i : Instr, decodeWord iw = .exec i ∧ i.mnemonic = row.mnemonic) ∧
  (∀ iw : InstrWord, (opcodeRows.filter (·.spells iw)).length ≤ 1)

/-- R78, R81 (the spec's own decision D16): a word that matches no row is `UnknownInstruction` with the word as info, and
the word front end produces no other fault. -/
def Obligations.IllegalWordsAreUnknown : Prop :=
  ∀ iw : InstrWord,
    (legalWord iw = false ↔ decodeWord iw = .fault (.unknownInstruction (.word iw))) ∧
    (∀ r, decodeWord iw = .fault r → r = .unknownInstruction (.word iw))

/-- R83: the count of the legal words. -/
def Obligations.LegalWordsCount : Prop :=
  Nat.card { iw : InstrWord // legalWord iw = true } =
    7 * 32 ^ 3 + 3 * 32 ^ 2 * 2 ^ 32 + 2 ^ 32 + 4 * 32 ^ 2 * 2 ^ 32

/-- Words of spec/95_test_vectors.md, one or more per format, decode to the instructions they stand for, and four words
with a non-zero unused field or without a meaning do not (W1, W3, W9, W11). -/
def Obligations.SampleWordsDecode : Prop :=
  decodeWord 0x0211402000000000#64 = .exec (.add 8 16 17) ∧
  decodeWord 0x0109601800000000#64 = .exec (.mult 12 8 9) ∧
  decodeWord 0x200900000000000A#64 = .exec (.addi 9 0 10#32) ∧
  decodeWord 0x312A0000FFFFFFF0#64 = .exec (.andi 10 9 0xFFFFFFF0#32) ∧
  decodeWord 0x0800000000000008#64 = .exec (.j 8#32) ∧
  decodeWord 0x121100000000000C#64 = .exec (.beq 16 17 12#32) ∧
  decodeWord 0x1D09000000000064#64 = .exec (.bgtz 8 9 100#32) ∧
  decodeWord 0x0000000000000000#64 = .fault (.unknownInstruction (.word 0#64)) ∧
  decodeWord 0x0211402000000001#64 = .fault (.unknownInstruction (.word 0x0211402000000001#64)) ∧
  decodeWord 0x200908000000000A#64 = .fault (.unknownInstruction (.word 0x200908000000000A#64)) ∧
  decodeWord 0x0A00000000000008#64 = .fault (.unknownInstruction (.word 0x0A00000000000008#64))

/-! ## The text front end -/

/-- R95, whole: `idx` is a bijection from the valid names onto 0 to 31 and `name` is its inverse. -/
def Obligations.RegisterNamesAreBijective : Prop :=
  (∀ i : Reg, idx (regName i) = some i) ∧ (∀ (s : List Char) (i : Reg), idx s = some i → s = regName i)

/-- R96 (range and characters are the spec's own decisions D6 and D19): a literal is valid exactly when it is an optional
sign and one or more decimal digits whose integer is in range, and then gives that integer's 32 bits. -/
def Obligations.LiteralsAreSignedDecimal : Prop :=
  ∀ (s : List Char) (w : Word), parseLit s = some w ↔
    ∃ (sign digits : List Char) (v : Int), s = sign ++ digits ∧ (sign = [] ∨ sign = ['+'] ∨ sign = ['-']) ∧
      digits ≠ [] ∧ (∀ c ∈ digits, c.isDigit = true) ∧
      v = (if sign = ['-'] then -1 else 1) *
        (Nat.ofDigits 10 (digits.reverse.map fun c => c.toNat - '0'.toNat) : Nat) ∧
      -(2 ^ 31) ≤ v ∧ v ≤ 2 ^ 31 - 1 ∧ w = bv32 v

/-- R96, R102 (the spec's own decision D22): printing a literal signed and parsing it gives the literal back. -/
def Obligations.PrintedLiteralParsesBack : Prop :=
  ∀ w : Word, parseLit (litText w) = some w

/-- R91, R92, R98 (the spec's own decision D17): a mnemonic and one to three operands, spaced in any way with spaces and
newlines, tokenize to that mnemonic and those operands; an operand is any trimmed text without a comma, and a single
empty operand is no operand. -/
def Obligations.SpacingIsFree : Prop :=
  ∀ (lead m sep : List Char) (pieces : List (List Char × List Char × List Char)),
    lead.all isWs = true → m ≠ [] → m.all (fun c => !isWs c) = true → sep ≠ [] → sep.all isWs = true →
    pieces ≠ [] → pieces.length ≤ 3 → pieces.map (fun p => p.2.1) ≠ [[]] →
    (∀ p ∈ pieces, p.1.all isWs = true ∧ p.2.2.all isWs = true ∧ ',' ∉ p.2.1 ∧ trim p.2.1 = p.2.1) →
    tokenize (lead ++ m ++ sep ++ [','].intercalate (pieces.map fun p => p.1 ++ p.2.1 ++ p.2.2)) =
      .ok m (pieces.map fun p => p.2.1)

/-- R98, for every instruction: its assembler line decodes to it, is within the limit of a line (R90), and is assembled
to its word. The spacing of the line is the model's (log entry 9). -/
def Obligations.DisassembledLineDecodesBack : Prop :=
  ∀ i : Instr, decodeLine (disassemble i) = .exec i ∧ (Request.line (disassemble i)).wf = true ∧
    assemble (disassemble i) = some (encode i)

/-- R70, R98: both front ends give the same instruction: a line that assembles and the word it assembles to decode
alike, so one step on either, from the same state, is the same. -/
def Obligations.FrontEndsAgree : Prop :=
  ∀ (text : List Char) (iw : InstrWord), assemble text = some iw →
    decodeWord iw = decodeLine text ∧
    (∀ (s : State) (rest : List Request), (Request.line text).wf = true →
      step { s with requests := .line text :: rest } = step { s with requests := .word iw :: rest })

/-- R172 (the spec's own decision D11 for the advance): a step on a line with no character other than space and newline
reports `NoMnemonic` and advances. -/
def Obligations.BlankLineReportsNoMnemonic : Prop :=
  ∀ (s : State) (text : List Char) (rest : List Request),
    s.requests = .line text :: rest → text.length ≤ 63 → (∀ c ∈ text, c = ' ' ∨ c = '\n') →
    ∃ t, step s = .next t ∧ t.outputs = ⟨none, some .noMnemonic⟩ ∧ t.pc = s.pc + 4 ∧
      t.readReg 0 = 0 ∧ (∀ i, i ≠ 0 → t.readReg i = s.readReg i)

/-- R173 (the spec's own decision D11 for the advance): a mnemonic, known or not, followed by text with 3 or more commas
reports `TooManyOperands` and advances, with no register changed but the reset of `x[0]`. -/
def Obligations.ThreeCommasReportTooManyOperands : Prop :=
  ∀ (s : State) (lead m tail : List Char) (w : Char) (rest : List Request),
    s.requests = .line (lead ++ m ++ w :: tail) :: rest → (lead ++ m ++ w :: tail).length ≤ 63 →
    lead.all isWs = true → m ≠ [] → m.all (fun c => !isWs c) = true → isWs w = true → 3 ≤ tail.count ',' →
    ∃ t, step s = .next t ∧ t.outputs = ⟨none, some .tooManyOperands⟩ ∧ t.pc = s.pc + 4 ∧
      t.readReg 0 = 0 ∧ (∀ i, i ≠ 0 → t.readReg i = s.readReg i)

/-- R174, R35 (at pc 0 too, the spec's own decision D12): a line whose mnemonic is none of the fifteen reports
`UnknownInstruction` with the mnemonic, whatever its at most three operands, and leaves the pc; so does a word that
spells no instruction (the spec's own decision D16). -/
def Obligations.UnknownInstructionLeavesPc : Prop :=
  (∀ (s : State) (text m : List Char) (ops : List (List Char)) (rest : List Request),
    s.requests = .line text :: rest → text.length ≤ 63 → tokenize text = .ok m ops → m ∉ mnemonics →
    ∃ t, step s = .next t ∧ t.outputs = ⟨none, some (.unknownInstruction (.mnemonic m))⟩ ∧ t.pc = s.pc ∧
      t.readReg 0 = 0 ∧ (∀ i, i ≠ 0 → t.readReg i = s.readReg i)) ∧
  (∀ (s : State) (iw : InstrWord) (rest : List Request),
    s.requests = .word iw :: rest → (∀ row ∈ opcodeRows, iw &&& row.mask ≠ row.pattern) →
    ∃ t, step s = .next t ∧ t.outputs = ⟨none, some (.unknownInstruction (.word iw))⟩ ∧ t.pc = s.pc ∧
      t.readReg 0 = 0 ∧ (∀ i, i ≠ 0 → t.readReg i = s.readReg i))

/-- R97, R175, R177, R179, R180, R181 (register before literal is the spec's own decision D13): the report of a tokenized
line with a known mnemonic, by the first check it fails: the count (1 operand for `J`, 3 for the rest), the registers
(the first three operands of the R-format, the first two of the I-format and the branches), the literal. -/
def Obligations.OperandChecksInOrder : Prop :=
  ∀ (text m : List Char) (ops : List (List Char)), tokenize text = .ok m ops → m ∈ mnemonics →
    let needed := if m = "J".toList then 1 else 3
    let rFormat := m ∈ ["ADD", "ADDU", "SUB", "SUBU", "MULT", "AND", "OR"].map String.toList
    let iFormat := m ∈ ["ADDI", "ANDI", "ORI"].map String.toList
    let registers := if m = "J".toList then [] else if rFormat then ops else ops.take 2
    let literals := if rFormat then [] else ops.drop (needed - 1)
    (ops.length ≠ needed → decodeLine text = .fault (.argumentCountMismatch needed ops.length)) ∧
    (ops.length = needed → (∃ a ∈ registers, idx a = none) → decodeLine text = .fault .registerNotFound) ∧
    (ops.length = needed → (∀ a ∈ registers, idx a ≠ none) → (∃ a ∈ literals, parseLit a = none) →
      decodeLine text = .fault (if iFormat then .invalidImmediate else .invalidAddress)) ∧
    (ops.length = needed → (∀ a ∈ registers, idx a ≠ none) → (∀ a ∈ literals, parseLit a ≠ none) →
      ∃ i, decodeLine text = .exec i ∧ i.mnemonic.toList = m)

/-- R170 (the numbers are the spec's own decision D14): the codes of the seven kinds and of no fault. -/
def Obligations.FaultCodes : Prop :=
  (∀ tr, Outputs.errCode ⟨tr, none⟩ = 0) ∧
  (∀ tr, Outputs.errCode ⟨tr, some .noMnemonic⟩ = 1 ∧ Outputs.errCode ⟨tr, some .tooManyOperands⟩ = 2 ∧
    (∀ info, Outputs.errCode ⟨tr, some (.unknownInstruction info)⟩ = 3) ∧
    (∀ e n, Outputs.errCode ⟨tr, some (.argumentCountMismatch e n)⟩ = 4) ∧
    Outputs.errCode ⟨tr, some .registerNotFound⟩ = 5 ∧ Outputs.errCode ⟨tr, some .invalidImmediate⟩ = 6 ∧
    Outputs.errCode ⟨tr, some .invalidAddress⟩ = 7)

/-- R102, R188 (negative numbers are the spec's own decision D22): the text of the source's two trace examples, of one jump
and of one negative literal; after a cycle the host prints exactly one line, which begins with `EXECUTE -> ` or with
`ERRO:`. -/
def Obligations.HostPrintsOneLine : Prop :=
  traceLine (recordOf (.add 8 16 17)) = "EXECUTE -> 0 16 17 8 0 32".toList ∧
  traceLine (recordOf (.addi 9 0 10#32)) = "EXECUTE -> 8 0 9 10".toList ∧
  traceLine (recordOf (.j 8#32)) = "EXECUTE -> 2 8".toList ∧
  traceLine (recordOf (.beq 0 0 0xFFFFFFF8#32)) = "EXECUTE -> 4 -8".toList ∧
  (∀ s t : State, s.requests ≠ [] → step s = .next t →
    ∃ line, t.outputs.lines = [line] ∧ '\n' ∉ line ∧
      (("EXECUTE -> ".toList <+: line ∧ t.outputs.trace.isSome = true) ∨
       ("ERRO:".toList <+: line ∧ t.outputs.err.isSome = true)))
end

