-- ==== Sys2Proof/Laws/Decode.lean ====
section
/-! SUPPORT. The layout of the instruction word: packing and unpacking the fields undo each other (spec/30_encoding.md
R72), and the small lemmas of the text front end. -/

namespace Sys2Proof

/-- A line is within the contract exactly when it has at most 63 characters (R90). -/
@[simp] theorem wf_line (text : List Char) : (Request.line text).wf = true ↔ text.length ≤ 63 := by
  simp [Request.wf]

/-- Every word is within the contract (R78). -/
@[simp] theorem wf_word (iw : InstrWord) : (Request.word iw).wf = true := rfl

@[simp] theorem regOfBits_regBits (r : Reg) : regOfBits (regBits r) = r := by
  revert r; decide

@[simp] theorem regBits_regOfBits (b : BitVec 5) : regBits (regOfBits b) = b := by
  revert b; decide

/-- No bit of a field is lost or moved by packing it into the word. -/
@[simp] theorem ofWord_toWord (f : Fields) : Fields.ofWord f.toWord = f := by
  obtain ⟨op, rs, rt, rd, shamt, funct, lit⟩ := f
  simp only [Fields.ofWord, Fields.toWord, Fields.mk.injEq]
  refine ⟨?_, ?_, ?_, ?_, ?_, ?_, ?_⟩ <;>
    · apply BitVec.eq_of_getLsbD_eq
      intro k hk
      simp only [BitVec.getLsbD_extractLsb', BitVec.getLsbD_append]
      interval_cases k <;> simp

/-- Every bit of the word is in exactly one field. -/
@[simp] theorem toWord_ofWord (iw : InstrWord) : (Fields.ofWord iw).toWord = iw := by
  apply BitVec.eq_of_getLsbD_eq
  intro k hk
  simp only [Fields.ofWord, Fields.toWord, BitVec.getLsbD_append, BitVec.getLsbD_extractLsb']
  interval_cases k <;> simp

/-- Masking a word masks each field on its own. -/
theorem toWord_and_toWord (f g : Fields) :
    f.toWord &&& g.toWord = Fields.toWord ⟨f.op &&& g.op, f.rs &&& g.rs, f.rt &&& g.rt, f.rd &&& g.rd,
      f.shamt &&& g.shamt, f.funct &&& g.funct, f.lit &&& g.lit⟩ := by
  simp only [Fields.toWord]
  apply BitVec.eq_of_getLsbD_eq
  intro k hk
  simp only [BitVec.getLsbD_and, BitVec.getLsbD_append]
  interval_cases k <;> simp

/-- The masks of R84 as fields. -/
theorem maskR_eq : maskR = Fields.toWord ⟨63, 0, 0, 0, 31, 63, 0xFFFFFFFF⟩ := by decide
theorem maskIB_eq : maskIB = Fields.toWord ⟨63, 0, 0, 31, 31, 63, 0⟩ := by decide
theorem maskJ_eq : maskJ = Fields.toWord ⟨63, 31, 31, 31, 31, 63, 0⟩ := by decide

/-- An R-format word keeps only its `funct` under the R mask (R73, R84). -/
theorem ofR_and_maskR (funct : BitVec 6) (rd rs rt : Reg) :
    (Fields.ofR funct rd rs rt).toWord &&& maskR = Fields.toWord ⟨0, 0, 0, 0, 0, funct &&& 63, 0⟩ := by
  rw [maskR_eq, toWord_and_toWord]
  simp [Fields.ofR]

/-- An I-format or B-format word keeps only its `op` under their mask (R74, R76, R84). -/
theorem ofIB_and_maskIB (op : BitVec 6) (rs rt : Reg) (lit : Word) :
    (Fields.ofIB op rs rt lit).toWord &&& maskIB = Fields.toWord ⟨op &&& 63, 0, 0, 0, 0, 0, 0⟩ := by
  rw [maskIB_eq, toWord_and_toWord]
  simp [Fields.ofIB]

/-- A J-format word keeps only its `op` under the J mask (R75, R84). -/
theorem j_and_maskJ (lit : Word) :
    (Fields.toWord ⟨0x02#6, 0, 0, 0, 0, 0, lit⟩) &&& maskJ = Fields.toWord ⟨0x02#6, 0, 0, 0, 0, 0, 0⟩ := by
  rw [maskJ_eq, toWord_and_toWord]
  simp

theorem idx_regName (i : Reg) : idx (regName i) = some i := by
  revert i; decide

theorem splitCommas_ne_nil (s : List Char) : splitCommas s ≠ [] := by
  cases s with
  | nil => simp [splitCommas]
  | cons c cs =>
    rw [splitCommas]; split
    · simp
    · split <;> simp

end Sys2Proof
end

