-- ==== Sys2Proof/Laws/State.lean ====
section
/-! SUPPORT. One lemma per field per update of State, and what reading a register gives after each. -/

namespace Sys2Proof.Machine

@[simp] theorem readReg_writeReg_self (s : State) (i : Reg) (v : Word) : (s.writeReg i v).readReg i = v := by
  simp [State.readReg, State.writeReg]

theorem readReg_writeReg_of_ne (s : State) {i k : Reg} (v : Word) (h : k ≠ i) :
    (s.writeReg i v).readReg k = s.readReg k := by
  have : (i : Nat) ≠ k := fun e => h (Fin.ext e.symm)
  simp [State.readReg, State.writeReg, this]

theorem readReg_writeReg (s : State) (i k : Reg) (v : Word) :
    (s.writeReg i v).readReg k = if k = i then v else s.readReg k := by
  split
  · next h => subst h; exact readReg_writeReg_self s k v
  · next h => exact readReg_writeReg_of_ne s v h

/-- Two states are equal when their registers, pc, requests and outputs are. -/
theorem state_ext {s t : State} (hx : ∀ i : Reg, s.readReg i = t.readReg i) (hpc : s.pc = t.pc)
    (hr : s.requests = t.requests) (ho : s.outputs = t.outputs) : s = t := by
  obtain ⟨x, pc, requests, outputs⟩ := s
  obtain ⟨x', pc', requests', outputs'⟩ := t
  have : x = x' := Vector.ext fun i hi => hx ⟨i, hi⟩
  simp_all

@[simp] theorem writeReg_pc (s : State) (i : Reg) (v : Word) : (s.writeReg i v).pc = s.pc := rfl
@[simp] theorem writeReg_requests (s : State) (i : Reg) (v : Word) : (s.writeReg i v).requests = s.requests := rfl
@[simp] theorem writeReg_outputs (s : State) (i : Reg) (v : Word) : (s.writeReg i v).outputs = s.outputs := rfl

@[simp] theorem zeroReset_pc (s : State) : s.zeroReset.pc = s.pc := rfl
@[simp] theorem zeroReset_requests (s : State) : s.zeroReset.requests = s.requests := rfl
@[simp] theorem zeroReset_outputs (s : State) : s.zeroReset.outputs = s.outputs := rfl

/-- After step 1 of the cycle register 0 reads 0 (R26). -/
@[simp] theorem readReg_zeroReset_zero (s : State) : s.zeroReset.readReg 0 = 0#32 := readReg_writeReg_self s 0 0

/-- Step 1 of the cycle leaves every other register alone (R26). -/
theorem readReg_zeroReset_of_ne (s : State) {k : Reg} (h : k ≠ 0) : s.zeroReset.readReg k = s.readReg k :=
  readReg_writeReg_of_ne s 0 h

@[simp] theorem advance_readReg (s : State) (i : Reg) : s.advance.readReg i = s.readReg i := rfl
@[simp] theorem advance_pc (s : State) : s.advance.pc = s.pc + 4 := rfl
@[simp] theorem advance_requests (s : State) : s.advance.requests = s.requests := rfl
@[simp] theorem advance_outputs (s : State) : s.advance.outputs = s.outputs := rfl

@[simp] theorem redirect_readReg (s : State) (lit : Word) (i : Reg) : (s.redirect lit).readReg i = s.readReg i := rfl
@[simp] theorem redirect_pc (s : State) (lit : Word) : (s.redirect lit).pc = lit := rfl
@[simp] theorem redirect_requests (s : State) (lit : Word) : (s.redirect lit).requests = s.requests := rfl
@[simp] theorem redirect_outputs (s : State) (lit : Word) : (s.redirect lit).outputs = s.outputs := rfl

@[simp] theorem emit_readReg (s : State) (t : Trace) (i : Reg) : (s.emit t).readReg i = s.readReg i := rfl
@[simp] theorem emit_pc (s : State) (t : Trace) : (s.emit t).pc = s.pc := rfl
@[simp] theorem emit_requests (s : State) (t : Trace) : (s.emit t).requests = s.requests := rfl
@[simp] theorem emit_outputs (s : State) (t : Trace) : (s.emit t).outputs = ⟨some t, none⟩ := rfl

@[simp] theorem report_readReg (s : State) (r : FaultReport) (i : Reg) : (s.report r).readReg i = s.readReg i := rfl
@[simp] theorem report_pc (s : State) (r : FaultReport) : (s.report r).pc = s.pc := rfl
@[simp] theorem report_requests (s : State) (r : FaultReport) : (s.report r).requests = s.requests := rfl
@[simp] theorem report_outputs (s : State) (r : FaultReport) : (s.report r).outputs = ⟨none, some r⟩ := rfl

@[simp] theorem present_readReg (s : State) (req : Request) (i : Reg) :
    (s.present req).readReg i = s.readReg i := rfl
@[simp] theorem present_pc (s : State) (req : Request) : (s.present req).pc = s.pc := rfl
@[simp] theorem present_requests (s : State) (req : Request) : (s.present req).requests = req :: s.requests := rfl
@[simp] theorem present_outputs (s : State) (req : Request) : (s.present req).outputs = s.outputs := rfl

@[simp] theorem takeFault_readReg (s : State) (r : FaultReport) (i : Reg) :
    (s.takeFault r).readReg i = s.readReg i := by
  unfold State.takeFault; cases faultKeepsPc r <;> rfl

@[simp] theorem takeFault_pc (s : State) (r : FaultReport) :
    (s.takeFault r).pc = if faultKeepsPc r then s.pc else s.pc + 4 := by
  unfold State.takeFault; cases faultKeepsPc r <;> rfl

@[simp] theorem takeFault_requests (s : State) (r : FaultReport) : (s.takeFault r).requests = s.requests := by
  unfold State.takeFault; cases faultKeepsPc r <;> rfl

@[simp] theorem takeFault_outputs (s : State) (r : FaultReport) : (s.takeFault r).outputs = ⟨none, some r⟩ := by
  unfold State.takeFault; cases faultKeepsPc r <;> rfl

end Sys2Proof.Machine
end

