-- ==== Sys2Proof/Laws/Formats.lean ====
section
/-! SUPPORT. Everything each format's shared contract can do, said once: the provers cite these instead of unfolding the
contracts (spec/40_arith_logic_r.md R120; spec/41_immediate.md R140; spec/42_jump.md R150; spec/43_branch.md R155). -/

namespace Sys2Proof.Machine

/-- What a cycle that writes one register leaves: the value in it, the others as they were, the pc 4 further, the given
trace on the port, the pending requests as they were. -/
structure Wrote (d : Reg) (v : Word) (tr : Trace) (s t : State) : Prop where
  value : t.readReg d = v
  others : ∀ i : Reg, i ≠ d → t.readReg i = s.readReg i
  pc : t.pc = s.pc + 4
  outputs : t.outputs = ⟨some tr, none⟩
  requests : t.requests = s.requests

/-- What a cycle that writes no register leaves: all registers as they were, the given pc, the given trace. -/
structure Moved (pc : Word) (tr : Trace) (s t : State) : Prop where
  regs : ∀ i : Reg, t.readReg i = s.readReg i
  pc : t.pc = pc
  outputs : t.outputs = ⟨some tr, none⟩
  requests : t.requests = s.requests

theorem execR_spec (funct : BitVec 6) (f : Word → Word → Word) (rd rs rt : Reg) (s : State) :
    ∃ t, execR funct f rd rs rt s = .next t ∧
      Wrote rd (f (s.readReg rs) (s.readReg rt)) (.r 0x00#6 rs rt rd 0 funct) s t :=
  ⟨_, rfl, by simp [State.regOperand], fun i h => by simp [readReg_writeReg_of_ne _ _ h], rfl, rfl, rfl⟩

theorem execI_spec (op : BitVec 6) (f : Word → Word → Word) (rt rs : Reg) (lit : Word) (s : State) :
    ∃ t, execI op f rt rs lit s = .next t ∧ Wrote rt (f (s.readReg rs) lit) (.i op rs rt lit) s t :=
  ⟨_, rfl, by simp [State.regOperand, litOperand], fun i h => by simp [readReg_writeReg_of_ne _ _ h], rfl, rfl, rfl⟩

theorem execJump_spec (op : BitVec 6) (lit : Word) (s : State) :
    ∃ t, execJump op lit s = .next t ∧ Moved lit (.j op lit) s t :=
  ⟨_, rfl, fun _ => rfl, rfl, rfl, rfl⟩

theorem execB_spec (op : BitVec 6) (cond : Word → Word → Bool) (rs rt : Reg) (lit : Word) (s : State) :
    ∃ t, execB op cond rs rt lit s = .next t ∧
      Moved (if cond (s.readReg rs) (s.readReg rt) then lit else s.pc + 4) (.j op lit) s t := by
  cases h : cond (s.readReg rs) (s.readReg rt)
  · exact ⟨(s.emit (.j op lit)).advance, by simp [execB, State.regOperand, h], fun _ => rfl, rfl, rfl, rfl⟩
  · exact ⟨(s.emit (.j op lit)).redirect lit, by simp [execB, State.regOperand, litOperand, h],
      fun _ => rfl, rfl, rfl, rfl⟩

/-- Every instruction either writes one register and moves on by 4, or writes none and ends at some pc: the one lemma from
which a fact about all instructions is derived. -/
theorem exec_cases (i : Instr) (s : State) :
    ∃ t, exec i s = .next t ∧
      ((∃ d v tr, Wrote d v tr s t) ∨ (∃ pc tr, Moved pc tr s t)) := by
  cases i with
  | add rd rs rt => obtain ⟨t, h, w⟩ := execR_spec 0x20#6 addSigned rd rs rt s; exact ⟨t, h, .inl ⟨_, _, _, w⟩⟩
  | addu rd rs rt => obtain ⟨t, h, w⟩ := execR_spec 0x21#6 addUnsigned rd rs rt s; exact ⟨t, h, .inl ⟨_, _, _, w⟩⟩
  | sub rd rs rt => obtain ⟨t, h, w⟩ := execR_spec 0x22#6 subSigned rd rs rt s; exact ⟨t, h, .inl ⟨_, _, _, w⟩⟩
  | subu rd rs rt => obtain ⟨t, h, w⟩ := execR_spec 0x23#6 subUnsigned rd rs rt s; exact ⟨t, h, .inl ⟨_, _, _, w⟩⟩
  | mult rd rs rt => obtain ⟨t, h, w⟩ := execR_spec 0x18#6 mulSigned rd rs rt s; exact ⟨t, h, .inl ⟨_, _, _, w⟩⟩
  | and rd rs rt => obtain ⟨t, h, w⟩ := execR_spec 0x24#6 andBits rd rs rt s; exact ⟨t, h, .inl ⟨_, _, _, w⟩⟩
  | or rd rs rt => obtain ⟨t, h, w⟩ := execR_spec 0x25#6 orBits rd rs rt s; exact ⟨t, h, .inl ⟨_, _, _, w⟩⟩
  | addi rt rs lit => obtain ⟨t, h, w⟩ := execI_spec 0x08#6 addSigned rt rs lit s; exact ⟨t, h, .inl ⟨_, _, _, w⟩⟩
  | andi rt rs lit => obtain ⟨t, h, w⟩ := execI_spec 0x0C#6 andBits rt rs lit s; exact ⟨t, h, .inl ⟨_, _, _, w⟩⟩
  | ori rt rs lit => obtain ⟨t, h, w⟩ := execI_spec 0x0D#6 orBits rt rs lit s; exact ⟨t, h, .inl ⟨_, _, _, w⟩⟩
  | j lit => obtain ⟨t, h, w⟩ := execJump_spec 0x02#6 lit s; exact ⟨t, h, .inr ⟨_, _, w⟩⟩
  | beq rs rt lit => obtain ⟨t, h, w⟩ := execB_spec 0x04#6 condEqual rs rt lit s; exact ⟨t, h, .inr ⟨_, _, w⟩⟩
  | bne rs rt lit => obtain ⟨t, h, w⟩ := execB_spec 0x05#6 condNotEqual rs rt lit s; exact ⟨t, h, .inr ⟨_, _, w⟩⟩
  | blez rs rt lit => obtain ⟨t, h, w⟩ := execB_spec 0x06#6 condLessOrEqual rs rt lit s; exact ⟨t, h, .inr ⟨_, _, w⟩⟩
  | bgtz rs rt lit => obtain ⟨t, h, w⟩ := execB_spec 0x07#6 condGreater rs rt lit s; exact ⟨t, h, .inr ⟨_, _, w⟩⟩

end Sys2Proof.Machine
end

