-- ==== Sys2Proof/Laws/PerInstr.lean ====
section
/-! SUPPORT. Statements for all instructions, one lemma per constructor (LAWS.json). -/

/-- The family EncodeMatches: the word of an instruction spells its own row of the match and mask table
(spec/30_encoding.md R84). -/
def Sys2Proof.Laws.EncodeMatches.Statement (i : Sys2Proof.Instr) : Prop :=
  ∃ row ∈ Sys2Proof.opcodeRows, row.mnemonic = i.mnemonic ∧ Sys2Proof.encode i &&& row.mask = row.pattern

open Sys2Proof

theorem Sys2Proof.Laws.EncodeMatches.of_row {i : Instr} (row : OpcodeRow) (h : row ∈ opcodeRows)
    (hm : row.mnemonic = i.mnemonic) (hw : encode i &&& row.mask = row.pattern) :
    Sys2Proof.Laws.EncodeMatches.Statement i := ⟨row, h, hm, hw⟩

theorem Sys2Proof.Laws.EncodeMatches.add (rd rs rt : Reg) : Sys2Proof.Laws.EncodeMatches.Statement (.add rd rs rt) :=
  Sys2Proof.Laws.EncodeMatches.of_row ⟨"ADD", maskR, 0x0000002000000000#64⟩ (by decide) rfl ((ofR_and_maskR _ _ _ _).trans (by decide))

theorem Sys2Proof.Laws.EncodeMatches.addu (rd rs rt : Reg) : Sys2Proof.Laws.EncodeMatches.Statement (.addu rd rs rt) :=
  Sys2Proof.Laws.EncodeMatches.of_row ⟨"ADDU", maskR, 0x0000002100000000#64⟩ (by decide) rfl ((ofR_and_maskR _ _ _ _).trans (by decide))

theorem Sys2Proof.Laws.EncodeMatches.sub (rd rs rt : Reg) : Sys2Proof.Laws.EncodeMatches.Statement (.sub rd rs rt) :=
  Sys2Proof.Laws.EncodeMatches.of_row ⟨"SUB", maskR, 0x0000002200000000#64⟩ (by decide) rfl ((ofR_and_maskR _ _ _ _).trans (by decide))

theorem Sys2Proof.Laws.EncodeMatches.subu (rd rs rt : Reg) : Sys2Proof.Laws.EncodeMatches.Statement (.subu rd rs rt) :=
  Sys2Proof.Laws.EncodeMatches.of_row ⟨"SUBU", maskR, 0x0000002300000000#64⟩ (by decide) rfl ((ofR_and_maskR _ _ _ _).trans (by decide))

theorem Sys2Proof.Laws.EncodeMatches.mult (rd rs rt : Reg) : Sys2Proof.Laws.EncodeMatches.Statement (.mult rd rs rt) :=
  Sys2Proof.Laws.EncodeMatches.of_row ⟨"MULT", maskR, 0x0000001800000000#64⟩ (by decide) rfl ((ofR_and_maskR _ _ _ _).trans (by decide))

theorem Sys2Proof.Laws.EncodeMatches.and (rd rs rt : Reg) : Sys2Proof.Laws.EncodeMatches.Statement (.and rd rs rt) :=
  Sys2Proof.Laws.EncodeMatches.of_row ⟨"AND", maskR, 0x0000002400000000#64⟩ (by decide) rfl ((ofR_and_maskR _ _ _ _).trans (by decide))

theorem Sys2Proof.Laws.EncodeMatches.or (rd rs rt : Reg) : Sys2Proof.Laws.EncodeMatches.Statement (.or rd rs rt) :=
  Sys2Proof.Laws.EncodeMatches.of_row ⟨"OR", maskR, 0x0000002500000000#64⟩ (by decide) rfl ((ofR_and_maskR _ _ _ _).trans (by decide))

theorem Sys2Proof.Laws.EncodeMatches.addi (rt rs : Reg) (lit : Word) : Sys2Proof.Laws.EncodeMatches.Statement (.addi rt rs lit) :=
  Sys2Proof.Laws.EncodeMatches.of_row ⟨"ADDI", maskIB, 0x2000000000000000#64⟩ (by decide) rfl ((ofIB_and_maskIB _ _ _ _).trans (by decide))

theorem Sys2Proof.Laws.EncodeMatches.andi (rt rs : Reg) (lit : Word) : Sys2Proof.Laws.EncodeMatches.Statement (.andi rt rs lit) :=
  Sys2Proof.Laws.EncodeMatches.of_row ⟨"ANDI", maskIB, 0x3000000000000000#64⟩ (by decide) rfl ((ofIB_and_maskIB _ _ _ _).trans (by decide))

theorem Sys2Proof.Laws.EncodeMatches.ori (rt rs : Reg) (lit : Word) : Sys2Proof.Laws.EncodeMatches.Statement (.ori rt rs lit) :=
  Sys2Proof.Laws.EncodeMatches.of_row ⟨"ORI", maskIB, 0x3400000000000000#64⟩ (by decide) rfl ((ofIB_and_maskIB _ _ _ _).trans (by decide))

theorem Sys2Proof.Laws.EncodeMatches.j (lit : Word) : Sys2Proof.Laws.EncodeMatches.Statement (.j lit) :=
  Sys2Proof.Laws.EncodeMatches.of_row ⟨"J", maskJ, 0x0800000000000000#64⟩ (by decide) rfl ((j_and_maskJ _).trans (by decide))

theorem Sys2Proof.Laws.EncodeMatches.beq (rs rt : Reg) (lit : Word) : Sys2Proof.Laws.EncodeMatches.Statement (.beq rs rt lit) :=
  Sys2Proof.Laws.EncodeMatches.of_row ⟨"BEQ", maskIB, 0x1000000000000000#64⟩ (by decide) rfl ((ofIB_and_maskIB _ _ _ _).trans (by decide))

theorem Sys2Proof.Laws.EncodeMatches.bne (rs rt : Reg) (lit : Word) : Sys2Proof.Laws.EncodeMatches.Statement (.bne rs rt lit) :=
  Sys2Proof.Laws.EncodeMatches.of_row ⟨"BNE", maskIB, 0x1400000000000000#64⟩ (by decide) rfl ((ofIB_and_maskIB _ _ _ _).trans (by decide))

theorem Sys2Proof.Laws.EncodeMatches.blez (rs rt : Reg) (lit : Word) : Sys2Proof.Laws.EncodeMatches.Statement (.blez rs rt lit) :=
  Sys2Proof.Laws.EncodeMatches.of_row ⟨"BLEZ", maskIB, 0x1800000000000000#64⟩ (by decide) rfl ((ofIB_and_maskIB _ _ _ _).trans (by decide))

theorem Sys2Proof.Laws.EncodeMatches.bgtz (rs rt : Reg) (lit : Word) : Sys2Proof.Laws.EncodeMatches.Statement (.bgtz rs rt lit) :=
  Sys2Proof.Laws.EncodeMatches.of_row ⟨"BGTZ", maskIB, 0x1C00000000000000#64⟩ (by decide) rfl ((ofIB_and_maskIB _ _ _ _).trans (by decide))
end

