-- ==== Sys2Proof/Laws/Step.lean ====
section
/-! SUPPORT. What one step can do, said once (spec/10_state.md R36). -/

namespace Sys2Proof.Machine

theorem executeOrFault_exec (i : Instr) (s : State) : executeOrFault (.exec i) s = exec i s := rfl

theorem executeOrFault_fault (r : FaultReport) (s : State) : executeOrFault (.fault r) s = .next (s.takeFault r) := rfl

theorem step_nil {s : State} (h : s.requests = []) : step s = .next s := by
  simp [step, nextCycle, h]

theorem step_cons {s : State} {req : Request} {rest : List Request} (h : s.requests = req :: rest) :
    step s = cycle req { s with requests := rest } := by
  simp [step, nextCycle, h]

theorem cycle_of_wf {req : Request} (h : req.wf = true) (s : State) :
    cycle req s = executeOrFault (frontEnd req) s.zeroReset := by
  simp [cycle, h]

theorem cycle_of_not_wf {req : Request} (h : req.wf = false) (s : State) : cycle req s = .refused .lineTooLong := by
  simp [cycle, h]

/-- What one step can answer: the state it holds when no request is presented; a refusal when the request is a line too
long; else the effect of the instruction or of the fault, on the state after step 1 of the cycle. -/
theorem step_cases (s : State) :
    (s.requests = [] ∧ step s = .next s) ∨
    (∃ req rest, s.requests = req :: rest ∧ req.wf = false ∧ step s = .refused .lineTooLong) ∨
    (∃ req rest i, s.requests = req :: rest ∧ req.wf = true ∧ frontEnd req = .exec i ∧
      step s = exec i ({ s with requests := rest }).zeroReset) ∨
    (∃ req rest r, s.requests = req :: rest ∧ req.wf = true ∧ frontEnd req = .fault r ∧
      step s = .next (({ s with requests := rest }).zeroReset.takeFault r)) := by
  cases h : s.requests with
  | nil => exact .inl ⟨rfl, step_nil h⟩
  | cons req rest =>
    cases hw : req.wf with
    | false => exact .inr (.inl ⟨req, rest, rfl, hw, by rw [step_cons h, cycle_of_not_wf hw]⟩)
    | true =>
      cases hd : frontEnd req with
      | exec i => exact .inr (.inr (.inl ⟨req, rest, i, rfl, hw, hd, by rw [step_cons h, cycle_of_wf hw, hd]; rfl⟩))
      | fault r => exact .inr (.inr (.inr ⟨req, rest, r, rfl, hw, hd, by rw [step_cons h, cycle_of_wf hw, hd]; rfl⟩))

end Sys2Proof.Machine
end

