-- ==== Sys2Proof/Laws/Run.lean ====
section
/-! SUPPORT. Runs: the model's own run is the host's, and an induction over steps packaged once. -/

namespace Sys2Proof.Machine

/-- The run of Sys2Proof/Safety.lean is the host's run of the core. -/
theorem run_eq_core_run (k : Nat) (s : State) : run k s = Host.Core.run Sys2Proof.core k s := by
  induction k generalizing s with
  | zero => rfl
  | succ k ih =>
    simp only [run, Host.Core.run, core]
    cases step s with
    | next t => exact ih t
    | fault r => rfl
    | refused r => rfl

theorem run_succ_of_next {k : Nat} {s t : State} (h : step s = .next t) : run (k + 1) s = run k t := by
  simp [run, h]

/-- What every step keeps, every run keeps. -/
theorem run_keeps (P : State → Prop) (keep : ∀ s t, P s → step s = .next t → P t) (k : Nat) {s t : State} (hs : P s)
    (h : run k s = .next t) : P t := by
  induction k generalizing s with
  | zero => cases h; exact hs
  | succ k ih =>
    cases hst : step s with
    | next u => exact ih (keep s u hs hst) (run_succ_of_next hst ▸ h)
    | fault r => simp [run, hst] at h
    | refused r => simp [run, hst] at h

end Sys2Proof.Machine
end

