-- ==== Sys2Proof/Laws/Text.lean ====
section
/-! SUPPORT. What each part of the text front end can answer, said once (spec/30_encoding.md R91 to R97). -/

namespace Sys2Proof

/-! ## Tokenizer -/

theorem takeWhile_dropWhile_append {p : Char → Bool} {m : List Char} (h : m.all p = true) (r : List Char)
    (hr : ∀ c ∈ r.head?, p c = false) : (m ++ r).takeWhile p = m ∧ (m ++ r).dropWhile p = r := by
  induction m with
  | nil =>
    cases r with
    | nil => simp
    | cons c cs => have := hr c (by simp); simp [this]
  | cons a as ih =>
    simp only [List.all_cons, Bool.and_eq_true] at h
    simp [h.1, ih h.2]

/-- A line is leading white space, a mnemonic and the rest (R91): its tokens are the mnemonic and the rest's operands, or
too many of them. -/
theorem tokenize_parts (lead m rest : List Char) (hlead : lead.all isWs = true) (hm : m ≠ [])
    (hm' : m.all (fun c => !isWs c) = true) (hrest : ∀ c ∈ rest.head?, isWs c = true) :
    tokenize (lead ++ m ++ rest) =
      if (operandsOf rest).length > 3 then .tooManyOperands else .ok m (operandsOf rest) := by
  have hhead : ∀ c ∈ (m ++ rest).head?, isWs c = false := by
    cases m with
    | nil => simp at hm
    | cons a as => simp at hm' ⊢; exact hm'.1
  have e1 := takeWhile_dropWhile_append hlead (m ++ rest) hhead
  have e2 := takeWhile_dropWhile_append (p := fun c => !isWs c) hm' rest (by intro c hc; simp [hrest c hc])
  have hall : (lead ++ m ++ rest).all isWs = false := by
    cases m with
    | nil => simp at hm
    | cons a as => simp at hm'; simp [hm'.1]
  unfold tokenize mnemonicOf afterMnemonic
  rw [hall, List.append_assoc, e1.2, e2.1, e2.2]
  simp

theorem splitCommas_append (a b : List Char) (h : ',' ∉ a) : splitCommas (a ++ ',' :: b) = a :: splitCommas b := by
  induction a with
  | nil => simp [splitCommas]
  | cons c cs ih =>
    simp at h
    rw [List.cons_append, splitCommas, if_neg (Ne.symm h.1), ih h.2]

theorem splitCommas_of_not_mem (a : List Char) (h : ',' ∉ a) : splitCommas a = [a] := by
  induction a with
  | nil => simp [splitCommas]
  | cons c cs ih =>
    simp at h
    rw [splitCommas, if_neg (Ne.symm h.1), ih h.2]

/-- `k` commas give `k + 1` pieces (R92). -/
theorem splitCommas_length (a : List Char) : (splitCommas a).length = a.count ',' + 1 := by
  induction a with
  | nil => simp [splitCommas]
  | cons c cs ih =>
    rw [splitCommas]
    split
    · next h => subst h; simp [ih]
    · next h =>
      rw [List.count_cons_of_ne (by simpa using h), ← ih]
      split
      · next h => exact absurd h (splitCommas_ne_nil cs)
      · next h => simp [h]

/-- A text without white space is its own trimmed form (R92). -/
theorem trim_of_no_ws (s : List Char) (h : ∀ c ∈ s, isWs c = false) : trim s = s := by
  have drop : ∀ l : List Char, (∀ c ∈ l, isWs c = false) → l.dropWhile isWs = l := by
    intro l h
    cases l with
    | nil => rfl
    | cons c cs => simp [h c (by simp)]
  unfold trim
  rw [drop s h, drop _ (by simpa using h), List.reverse_reverse]

/-! ## Dispatch and operand checks -/

theorem dispatchMnemonic_of_find {m : List Char} {ops : List (List Char)} {e : String × (List (List Char) → Decoded)}
    (h : (executors.find? fun e => e.1.toList == m) = some e) : dispatchMnemonic m ops = e.2 ops := by
  unfold dispatchMnemonic
  rw [h]

theorem operandsR_cases (c : Reg → Reg → Reg → Instr) (ops : List (List Char)) :
    (ops.length ≠ 3 → operandsR c ops = .fault (.argumentCountMismatch 3 ops.length)) ∧
    (ops.length = 3 → (∃ a ∈ ops, idx a = none) → operandsR c ops = .fault .registerNotFound) ∧
    (ops.length = 3 → (∀ a ∈ ops, idx a ≠ none) → ∃ rd rs rt, operandsR c ops = .exec (c rd rs rt)) := by
  match ops with
  | [] | [a] | [a, b] | a :: b :: d :: e :: r => simp [operandsR]
  | [a, b, d] =>
    simp only [operandsR]
    cases ha : idx a <;> cases hb : idx b <;> cases hd : idx d <;> simp [ha, hb, hd]

theorem operandsRegRegLit_cases (bad : FaultReport) (c : Reg → Reg → Word → Instr) (ops : List (List Char)) :
    (ops.length ≠ 3 → operandsRegRegLit bad c ops = .fault (.argumentCountMismatch 3 ops.length)) ∧
    (ops.length = 3 → (∃ a ∈ ops.take 2, idx a = none) → operandsRegRegLit bad c ops = .fault .registerNotFound) ∧
    (ops.length = 3 → (∀ a ∈ ops.take 2, idx a ≠ none) → (∃ a ∈ ops.drop 2, parseLit a = none) →
      operandsRegRegLit bad c ops = .fault bad) ∧
    (ops.length = 3 → (∀ a ∈ ops.take 2, idx a ≠ none) → (∀ a ∈ ops.drop 2, parseLit a ≠ none) →
      ∃ r0 r1 lit, operandsRegRegLit bad c ops = .exec (c r0 r1 lit)) := by
  match ops with
  | [] | [a] | [a, b] | a :: b :: d :: e :: r => simp [operandsRegRegLit]
  | [a, b, d] =>
    simp only [operandsRegRegLit]
    cases ha : idx a <;> cases hb : idx b <;> cases hd : parseLit d <;> simp [ha, hb, hd]

theorem operandsLit_cases (c : Word → Instr) (ops : List (List Char)) :
    (ops.length ≠ 1 → operandsLit c ops = .fault (.argumentCountMismatch 1 ops.length)) ∧
    (ops.length = 1 → (∃ a ∈ ops, parseLit a = none) → operandsLit c ops = .fault .invalidAddress) ∧
    (ops.length = 1 → (∀ a ∈ ops, parseLit a ≠ none) → ∃ lit, operandsLit c ops = .exec (c lit)) := by
  match ops with
  | [] | a :: b :: r => simp [operandsLit]
  | [d] =>
    simp only [operandsLit]
    cases hd : parseLit d <;> simp [hd]

/-! ## Literals -/

/-- A run of digits is read as its value to the base 10, after what has been read already. -/
theorem digitsValue_eq_some (ds : List Char) (acc n : Nat) :
    digitsValue ds acc = some n ↔ (∀ c ∈ ds, c.isDigit = true) ∧
      n = acc * 10 ^ ds.length + Nat.ofDigits 10 (ds.reverse.map fun c => c.toNat - '0'.toNat) := by
  induction ds generalizing acc n with
  | nil => simp only [digitsValue, Option.some.injEq]; simp; exact eq_comm
  | cons c cs ih =>
    rw [digitsValue]
    split
    · next h =>
      rw [ih]
      have : '0'.toNat = 48 := rfl
      simp [h, Nat.ofDigits_append, this]
      intro _
      constructor <;> (intro h; rw [h]; ring)
    · next h => simp [h]

end Sys2Proof
end

