-- ==== Sys2Proof/Laws/Word.lean ====
section
/-! SUPPORT. The two readings of a word and their reduction modulo `2^32` (spec/00_scope.md R12). -/

namespace Sys2Proof

/-- `bv32` depends on the integer modulo `2^32` only. -/
theorem bv32_eq_of_emod_eq {a b : Int} (h : a % 2 ^ 32 = b % 2 ^ 32) : bv32 a = bv32 b := by
  unfold bv32
  apply BitVec.eq_of_toInt_eq
  simp only [BitVec.toInt_ofInt, Int.bmod]
  norm_num at h ⊢
  rw [h]

/-- The signed and the unsigned reading differ by a multiple of `2^32`. -/
theorem signed_emod (a : Word) : signed a % 2 ^ 32 = unsigned a % 2 ^ 32 := by
  unfold signed unsigned
  rw [BitVec.toInt_eq_toNat_bmod]
  simp only [Int.bmod]
  norm_num
  split <;> omega

/-- Reading a word signed and storing the integer gives the word back. -/
@[simp] theorem bv32_signed (w : Word) : bv32 (signed w) = w := by simp [bv32, signed]

/-- Reading a word unsigned and storing the integer gives the word back. -/
@[simp] theorem bv32_unsigned (w : Word) : bv32 (unsigned w) = w := by simp [bv32, unsigned]

/-- The signed reading is in the range of a literal (R96). -/
theorem signed_range (w : Word) : -(2 ^ 31) ≤ signed w ∧ signed w ≤ 2 ^ 31 - 1 := by
  have h1 := w.le_toInt
  have h2 := w.toInt_lt
  unfold signed
  norm_num at *
  omega

end Sys2Proof
end

