-- ==== Sys2Proof/Tests/Slice0.lean ====
section
/-! SUPPORT. Tests of the model. Every expected value is taken from spec/95_test_vectors.md (the vector's id stands in the
test's comment) or written out from the encoding of spec/30_encoding.md R72 to R84. The theorems named witness_ show
states that meet the hypotheses of a statement of Sys2Proof/Certificates/Slice0/Obligations.lean. -/

namespace Sys2Proof.Tests

open Sys2Proof.Machine

/-! ## Helpers -/

/-- A state at a pc with the listed registers set, all others 0, and the given pending requests. -/
def stateOf (pc : Word) (regs : List (Reg × Word)) (requests : List Request) : State :=
  ⟨regs.foldl (fun x p => x.set p.1 p.2) (Vector.replicate 32 0), pc, requests, ⟨none, none⟩⟩

/-- A request that is a text line. -/
def lineOf (text : String) : Request := .line text.toList

/-- The state a step answers, when it is a next state. -/
def nextOf : Result → Option State
  | .next t => some t
  | .fault _ => none
  | .refused _ => none

/-- A step answers a next state with this register, pc and outputs. -/
def ends (s : State) (i : Reg) (v pc : Word) (o : Outputs) : Bool :=
  match step s with
  | .next t => t.readReg i == v && t.pc == pc && t.outputs == o
  | .fault _ => false
  | .refused _ => false

/-- Outputs that carry a record. -/
def traced (t : Trace) : Outputs := ⟨some t, none⟩

/-- Outputs that carry a report. -/
def faulted (r : FaultReport) : Outputs := ⟨none, some r⟩

/-! ## Well-formedness: each check refuses an ill-formed term -/

theorem test_wf_line_of_63_accepted : (Request.line (List.replicate 63 ' ')).wf = true := by decide
theorem test_wf_line_of_64_refused : (Request.line (List.replicate 64 ' ')).wf = false := by decide
theorem test_wf_word_accepted : (Request.word 0#64).wf = true := by decide
/-- W3, W4, W5: `lit`, `shamt` or `funct` wrong in the R-format. -/
theorem test_wf_illegal_r_words :
    [0x0211402000000001#64, 0x0211406000000000#64, 0x0211401900000000#64].map legalWord = [false, false, false] := by
  decide
/-- W9, W8 and an `op` outside the map (W17). -/
theorem test_wf_illegal_i_words :
    [0x200908000000000A#64, 0x200900010000000A#64, 0x2400000000000000#64].map legalWord = [false, false, false] := by
  decide
/-- W10, W11, W12, W13, W14. -/
theorem test_wf_illegal_jump_and_branch_words :
    [0x0800000100000008#64, 0x0A00000000000008#64, 0x0810000000000008#64, 0x121008000000000C#64,
      0x121000010000000C#64].map legalWord = [false, false, false, false, false] := by decide
/-- W2, W23, W24. -/
theorem test_wf_legal_words :
    [0x0000002000000000#64, 0x0800000000000000#64, 0x2000000000000000#64].map legalWord = [true, true, true] := by decide

/-! ## Decoding: every instruction from a word written bit by bit (`op rs rt rd shamt funct lit`) -/

/-- `ADD $t0, $s0, $s1` -/
theorem test_decode_add :
    decodeWord (0b000000#6 ++ 0b10000#5 ++ 0b10001#5 ++ 0b01000#5 ++ 0b00000#5 ++ 0b100000#6 ++ 0#32) =
      .exec (.add 8 16 17) := by decide
/-- `ADDU $t2, $t0, $t1` -/
theorem test_decode_addu :
    decodeWord (0b000000#6 ++ 0b01000#5 ++ 0b01001#5 ++ 0b01010#5 ++ 0b00000#5 ++ 0b100001#6 ++ 0#32) =
      .exec (.addu 10 8 9) := by decide
/-- `SUB $t3, $t0, $t1` -/
theorem test_decode_sub :
    decodeWord (0b000000#6 ++ 0b01000#5 ++ 0b01001#5 ++ 0b01011#5 ++ 0b00000#5 ++ 0b100010#6 ++ 0#32) =
      .exec (.sub 11 8 9) := by decide
/-- `SUBU $v0, $a0, $a1` -/
theorem test_decode_subu :
    decodeWord (0b000000#6 ++ 0b00100#5 ++ 0b00101#5 ++ 0b00010#5 ++ 0b00000#5 ++ 0b100011#6 ++ 0#32) =
      .exec (.subu 2 4 5) := by decide
/-- `MULT $t4, $t0, $t1` -/
theorem test_decode_mult :
    decodeWord (0b000000#6 ++ 0b01000#5 ++ 0b01001#5 ++ 0b01100#5 ++ 0b00000#5 ++ 0b011000#6 ++ 0#32) =
      .exec (.mult 12 8 9) := by decide
/-- `AND $s2, $s0, $s1` -/
theorem test_decode_and :
    decodeWord (0b000000#6 ++ 0b10000#5 ++ 0b10001#5 ++ 0b10010#5 ++ 0b00000#5 ++ 0b100100#6 ++ 0#32) =
      .exec (.and 18 16 17) := by decide
/-- `OR $s3, $s0, $s1` -/
theorem test_decode_or :
    decodeWord (0b000000#6 ++ 0b10000#5 ++ 0b10001#5 ++ 0b10011#5 ++ 0b00000#5 ++ 0b100101#6 ++ 0#32) =
      .exec (.or 19 16 17) := by decide
/-- `ADDI $t1, $zero, 10` -/
theorem test_decode_addi :
    decodeWord (0b001000#6 ++ 0b00000#5 ++ 0b01001#5 ++ 0b00000#5 ++ 0b00000#5 ++ 0b000000#6 ++ 10#32) =
      .exec (.addi 9 0 10#32) := by decide
/-- `ANDI $t2, $t1, -16` -/
theorem test_decode_andi :
    decodeWord (0b001100#6 ++ 0b01001#5 ++ 0b01010#5 ++ 0b00000#5 ++ 0b00000#5 ++ 0b000000#6 ++ 0xFFFFFFF0#32) =
      .exec (.andi 10 9 0xFFFFFFF0#32) := by decide
/-- `ORI $t3, $t1, 4096` -/
theorem test_decode_ori :
    decodeWord (0b001101#6 ++ 0b01001#5 ++ 0b01011#5 ++ 0b00000#5 ++ 0b00000#5 ++ 0b000000#6 ++ 4096#32) =
      .exec (.ori 11 9 4096#32) := by decide
/-- `J 8` -/
theorem test_decode_j :
    decodeWord (0b000010#6 ++ 0b00000#5 ++ 0b00000#5 ++ 0b00000#5 ++ 0b00000#5 ++ 0b000000#6 ++ 8#32) =
      .exec (.j 8#32) := by decide
/-- `BEQ $s0, $s1, 12` -/
theorem test_decode_beq :
    decodeWord (0b000100#6 ++ 0b10000#5 ++ 0b10001#5 ++ 0b00000#5 ++ 0b00000#5 ++ 0b000000#6 ++ 12#32) =
      .exec (.beq 16 17 12#32) := by decide
/-- `BNE $t0, $zero, 64` -/
theorem test_decode_bne :
    decodeWord (0b000101#6 ++ 0b01000#5 ++ 0b00000#5 ++ 0b00000#5 ++ 0b00000#5 ++ 0b000000#6 ++ 64#32) =
      .exec (.bne 8 0 64#32) := by decide
/-- `BLEZ $t0, $t1, 100` -/
theorem test_decode_blez :
    decodeWord (0b000110#6 ++ 0b01000#5 ++ 0b01001#5 ++ 0b00000#5 ++ 0b00000#5 ++ 0b000000#6 ++ 100#32) =
      .exec (.blez 8 9 100#32) := by decide
/-- `BGTZ $t0, $t1, 100` -/
theorem test_decode_bgtz :
    decodeWord (0b000111#6 ++ 0b01000#5 ++ 0b01001#5 ++ 0b00000#5 ++ 0b00000#5 ++ 0b000000#6 ++ 100#32) =
      .exec (.bgtz 8 9 100#32) := by decide
/-- W1, W15, W16, W20, W22. -/
theorem test_decode_illegal_words :
    [0x0000000000000000#64, 0x0400000000000000#64, 0x0C00000000000000#64, 0x8C00000000000000#64,
      0xFFFFFFFFFFFFFFFF#64].all (fun iw => decodeWord iw == .fault (.unknownInstruction (.word iw))) = true := by decide
/-- The table's numbering, and the first step after reset (V31). -/
theorem test_table_word_runs :
    decodeTableWord 64 0x200900000000000A = some (.addi 9 0 10#32) ∧
    ends (State.reset.withFetchWord 64 0x200900000000000A) 9 10 4 (traced (.i 0x08#6 0 9 10#32)) = true := by decide

/-! ## One step of each instruction, presented as a word and as a line, from spec/95_test_vectors.md -/

/-- V3 -/
theorem test_add_wraps :
    ends (stateOf 0x100 [(16, 0x80000000), (17, 0x80000000)] [.word 0x0211402000000000#64]) 8 0 0x104
      (traced (.r 0 16 17 8 0 0x20)) = true := by decide
/-- V5 -/
theorem test_add_reads_before_it_writes :
    ends (stateOf 0x100 [(8, 0x40000001)] [lineOf "ADD $t0, $t0, $t0"]) 8 0x80000002 0x104
      (traced (.r 0 8 8 8 0 0x20)) = true := by decide
/-- V7 -/
theorem test_addu_wraps :
    ends (stateOf 0x100 [(8, 0xFFFFFFFF), (9, 2)] [lineOf "ADDU $t2, $t0, $t1"]) 10 1 0x104
      (traced (.r 0 8 9 10 0 0x21)) = true := by decide
/-- V9 -/
theorem test_sub_order_of_operands :
    ends (stateOf 0x100 [(8, 5), (9, 7)] [lineOf "SUB $t3, $t0, $t1"]) 11 0xFFFFFFFE 0x104
      (traced (.r 0 8 9 11 0 0x22)) = true := by decide
/-- V10 -/
theorem test_sub_overflow_wraps :
    ends (stateOf 0x100 [(8, 0x80000000), (9, 1)] [.word 0x0109582200000000#64]) 11 0x7FFFFFFF 0x104
      (traced (.r 0 8 9 11 0 0x22)) = true := by decide
/-- V13 -/
theorem test_subu_borrows :
    ends (stateOf 0x100 [(5, 1)] [lineOf "SUBU $v0, $a0, $a1"]) 2 0xFFFFFFFF 0x104
      (traced (.r 0 4 5 2 0 0x23)) = true := by decide
/-- V19 -/
theorem test_mult_low_half :
    ends (stateOf 0x100 [(8, 0x12345678), (9, 0x9ABCDEF0)] [lineOf "MULT $t4, $t0, $t1"]) 12 0x242D2080 0x104
      (traced (.r 0 8 9 12 0 0x18)) = true := by decide
/-- V18 -/
theorem test_mult_extremes :
    ends (stateOf 0x100 [(8, 0x80000000), (9, 0xFFFFFFFF)] [.word 0x0109601800000000#64]) 12 0x80000000 0x104
      (traced (.r 0 8 9 12 0 0x18)) = true := by decide
/-- V22 -/
theorem test_and :
    ends (stateOf 0x100 [(16, 0xF0F0F0F0), (17, 0xFF00FF00)] [lineOf "AND $s2, $s0, $s1"]) 18 0xF000F000 0x104
      (traced (.r 0 16 17 18 0 0x24)) = true := by decide
/-- V25 -/
theorem test_or :
    ends (stateOf 0x100 [(16, 0x80000000), (17, 1)] [lineOf "OR $s3, $s0, $s1"]) 19 0x80000001 0x104
      (traced (.r 0 16 17 19 0 0x25)) = true := by decide
/-- V34 -/
theorem test_addi_lowest_literal :
    ends (stateOf 0x100 [(9, 0x80000000)] [lineOf "ADDI $t0, $t1, -2147483648"]) 8 0 0x104
      (traced (.i 0x08 9 8 0x80000000)) = true := by decide
/-- V35 -/
theorem test_addi_highest_literal :
    ends (stateOf 0x100 [(9, 1)] [lineOf "ADDI $t0, $t1, 2147483647"]) 8 0x80000000 0x104
      (traced (.i 0x08 9 8 0x7FFFFFFF)) = true := by decide
/-- V41: a negative literal is not extended with zeros. -/
theorem test_andi_negative_literal :
    ends (stateOf 0x100 [(9, 0x12345678)] [lineOf "ANDI $t2, $t1, -16"]) 10 0x12345670 0x104
      (traced (.i 0x0C 9 10 0xFFFFFFF0)) = true := by decide
/-- V42: a literal wider than 16 bits. -/
theorem test_andi_wide_literal :
    ends (stateOf 0x100 [(9, 0xFFFFFFFF)] [.word 0x312A000000010000#64]) 10 0x00010000 0x104
      (traced (.i 0x0C 9 10 65536)) = true := by decide
/-- V47 -/
theorem test_ori_lowest_literal :
    ends (stateOf 0x100 [(9, 1)] [lineOf "ORI $t3, $t1, -2147483648"]) 11 0x80000001 0x104
      (traced (.i 0x0D 9 11 0x80000000)) = true := by decide
/-- V58: no alignment check. -/
theorem test_j_odd_target :
    ends (stateOf 0 [] [lineOf "J 7"]) 31 0 7 (traced (.j 0x02 7)) = true := by decide
/-- V59: absolute, a negative literal. -/
theorem test_j_negative_target :
    ends (stateOf 0x20 [] [lineOf "J -4"]) 31 0 0xFFFFFFFC (traced (.j 0x02 0xFFFFFFFC)) = true := by decide
/-- V71 -/
theorem test_beq_taken :
    ends (stateOf 0x40 [(16, 5), (17, 5)] [lineOf "BEQ $s0, $s1, 12"]) 16 5 12 (traced (.j 0x04 12)) = true := by decide
/-- V72 -/
theorem test_beq_not_taken :
    ends (stateOf 0x40 [(16, 5), (17, 6)] [lineOf "BEQ $s0, $s1, 12"]) 16 5 0x44 (traced (.j 0x04 12)) = true := by
  decide
/-- V74 -/
theorem test_bne_taken :
    ends (stateOf 0x10 [(8, 1)] [lineOf "BNE $t0, $zero, 64"]) 8 1 0x40 (traced (.j 0x05 64)) = true := by decide
/-- V76 -/
theorem test_bne_same_register :
    ends (stateOf 0x10 [(8, 9)] [lineOf "BNE $t0, $t0, 64"]) 8 9 0x14 (traced (.j 0x05 64)) = true := by decide
/-- V79: the comparison is signed. -/
theorem test_blez_signed :
    ends (stateOf 0x20 [(9, 0xFFFFFFFF)] [lineOf "BLEZ $t0, $t1, 100"]) 8 0 0x24 (traced (.j 0x06 100)) = true := by
  decide
/-- V77: equal operands branch. -/
theorem test_blez_equal :
    ends (stateOf 0x20 [(8, 3), (9, 3)] [lineOf "BLEZ $t0, $t1, 100"]) 8 3 0x64 (traced (.j 0x06 100)) = true := by decide
/-- V87: the comparison is signed. -/
theorem test_bgtz_signed :
    ends (stateOf 0x20 [(8, 0x7FFFFFFF), (9, 0x80000000)] [lineOf "BGTZ $t0, $t1, 100"]) 8 0x7FFFFFFF 0x64
      (traced (.j 0x07 100)) = true := by decide
/-- V89: a branch not taken at the top of the pc's range wraps it. -/
theorem test_bgtz_not_taken_wraps_pc :
    ends (stateOf 0xFFFFFFFC [(8, 1), (9, 2)] [lineOf "BGTZ $t0, $t1, 36"]) 8 1 0 (traced (.j 0x07 36)) = true := by
  decide

/-! ## Faults (F-vectors) -/

/-- F2 -/
theorem test_fault_no_mnemonic :
    ends (stateOf 0x100 [(8, 0x11111111)] [lineOf "   \n"]) 8 0x11111111 0x104 (faulted .noMnemonic) = true := by decide
/-- F12: the operand limit comes before the mnemonic. -/
theorem test_fault_too_many_operands :
    ends (stateOf 0x100 [(8, 0x11111111)] [lineOf "FOO 1, 2, 3, 4"]) 8 0x11111111 0x104
      (faulted .tooManyOperands) = true := by decide
/-- F6 -/
theorem test_fault_unknown_mnemonic :
    ends (stateOf 0x100 [(8, 0x11111111)] [lineOf "Add $t0, $t1, $t2"]) 8 0x11111111 0x100
      (faulted (.unknownInstruction (.mnemonic ['A', 'd', 'd']))) = true := by decide
/-- W1 -/
theorem test_fault_unknown_word :
    ends (stateOf 0x100 [(8, 0x11111111)] [.word 0#64]) 8 0x11111111 0x100
      (faulted (.unknownInstruction (.word 0#64))) = true := by decide
/-- F17: without commas the three names are one operand. -/
theorem test_fault_argument_count :
    ends (stateOf 0x100 [(8, 0x11111111)] [lineOf "ADD $t0 $t1 $t2"]) 8 0x11111111 0x104
      (faulted (.argumentCountMismatch 3 1)) = true := by decide
/-- F21 -/
theorem test_fault_argument_count_of_jump :
    ends (stateOf 0x100 [(8, 0x11111111)] [lineOf "J 8,"]) 8 0x11111111 0x104
      (faulted (.argumentCountMismatch 1 2)) = true := by decide
/-- F35: the register is reported before the literal. -/
theorem test_fault_register_first :
    ends (stateOf 0x100 [(8, 0x11111111)] [lineOf "ADDI $t0, $x1, abc"]) 8 0x11111111 0x104
      (faulted .registerNotFound) = true := by decide
/-- F48 -/
theorem test_fault_immediate_out_of_range :
    ends (stateOf 0x100 [(8, 0x11111111)] [lineOf "ADDI $t0, $zero, 2147483648"]) 8 0x11111111 0x104
      (faulted .invalidImmediate) = true := by decide
/-- F56 -/
theorem test_fault_address :
    ends (stateOf 0x100 [(8, 0x11111111)] [lineOf "BEQ $t0, $t0, loop"]) 8 0x11111111 0x104
      (faulted .invalidAddress) = true := by decide

/-! ## Tokenizer (K2, K11, K17, K18, K19), literals (V37, V38, F44, F45), names (F24 to F31) -/

theorem test_tokenize_free_spacing :
    tokenize "  ADD   $t0 ,  $s0 ,$s1  \n".toList =
      .ok "ADD".toList ["$t0".toList, "$s0".toList, "$s1".toList] := by decide
theorem test_tokenize_empty_piece :
    tokenize "ADD $t0,,$t1".toList = .ok "ADD".toList ["$t0".toList, [], "$t1".toList] := by decide
theorem test_tokenize_tab_is_ordinary :
    tokenize "ADD\t$t0, $t1, $t2".toList = .ok "ADD\t$t0,".toList ["$t1".toList, "$t2".toList] := by decide
theorem test_tokenize_commas_only :
    tokenize "ADD , ,".toList = .ok "ADD".toList [[], [], []] ∧ tokenize "ADD ,,,".toList = .tooManyOperands := by decide
theorem test_literals :
    parseLit "+7".toList = some 7#32 ∧ parseLit "0010".toList = some 10#32 ∧ parseLit "-0".toList = some 0#32 ∧
    parseLit "-2147483648".toList = some 0x80000000#32 ∧ parseLit "-2147483649".toList = none ∧
    parseLit "--1".toList = none ∧ parseLit "+".toList = none ∧ parseLit [] = none ∧ parseLit "0x10".toList = none := by
  decide
theorem test_register_names :
    idx "$t8".toList = some 24 ∧ idx "$ra".toList = some 31 ∧ idx "$t10".toList = none ∧ idx "$s8".toList = none ∧
    idx "$T0".toList = none ∧ idx "$8".toList = none ∧ idx "t0".toList = none := by decide

/-! ## The zero register (Z1) and the printed lines (V34, V62) -/

theorem test_zero_register_write_is_visible :
    ends (stateOf 0x200 [] [lineOf "ADDI $zero, $zero, 5"]) 0 5 0x204 (traced (.i 0x08 0 0 5)) = true := by decide
theorem test_zero_register_is_not_read_back :
    ends (stateOf 0x204 [(0, 5)] [lineOf "ADD $t0, $zero, $zero"]) 8 0 0x208 (traced (.r 0 0 0 8 0 0x20)) = true := by
  decide
theorem test_trace_lines :
    traceLine (.i 0x08 9 8 0x80000000) = "EXECUTE -> 8 9 8 -2147483648".toList ∧
    traceLine (.j 0x02 0xFFFFFFFF) = "EXECUTE -> 2 -1".toList := by decide

/-! ## Witnesses: for every statement with hypotheses, states and operands that meet all of them together -/

/-- A step that answers a next state, read through `nextOf`. -/
theorem next_of_nextOf {r : Result} {t : State} (h : nextOf r = some t) : r = .next t := by
  cases r with
  | next u => exact congrArg _ (Option.some.inj h)
  | fault _ => exact nomatch h
  | refused _ => exact nomatch h

/-- The state a cycle leaves, in the notation of `stateOf`. -/
def afterOf (pc : Word) (regs : List (Reg × Word)) (o : Outputs) : State :=
  { stateOf pc regs [] with outputs := o }

/-- A line of exactly 63 characters that spells `ADD $t0, $s0, $s1`, and one of 63 characters that is blank. -/
def longestAdd : Request := .line ("ADD $t0, $s0, $s1".toList ++ List.replicate 46 ' ')
def longestBlank : List Char := List.replicate 62 ' ' ++ ['\n']

/-- The overflowing operands of V3, V10 and V18. -/
theorem witness_SignednessOnlyShowsInTrace :
    (∃ t u, exec (.add 8 16 17) (stateOf 0 [(16, 0x80000000), (17, 0x80000000)] []) = .next t ∧
      exec (.addu 8 16 17) (stateOf 0 [(16, 0x80000000), (17, 0x80000000)] []) = .next u) ∧
    (∃ t u, exec (.sub 8 16 17) (stateOf 0 [(16, 0x80000000), (17, 1)] []) = .next t ∧
      exec (.subu 8 16 17) (stateOf 0 [(16, 0x80000000), (17, 1)] []) = .next u) ∧
    (∃ t, exec (.mult 8 16 17) (stateOf 0 [(16, 0x80000000), (17, 0xFFFFFFFF)] []) = .next t) :=
  ⟨⟨_, _, rfl, rfl⟩, ⟨_, _, rfl, rfl⟩, ⟨_, rfl⟩⟩

/-- Two registers at the two ends of the signed range, and one register twice. -/
theorem witness_BranchPairsAreComplements :
    ∀ rt : Reg, rt = 16 ∨ rt = 17 → ∃ eq ne le gt lt ge,
      exec (.beq 16 rt 12) (stateOf 0 [(16, 0x80000000), (17, 0x7FFFFFFF)] []) = .next eq ∧
      exec (.bne 16 rt 12) (stateOf 0 [(16, 0x80000000), (17, 0x7FFFFFFF)] []) = .next ne ∧
      exec (.blez 16 rt 12) (stateOf 0 [(16, 0x80000000), (17, 0x7FFFFFFF)] []) = .next le ∧
      exec (.bgtz 16 rt 12) (stateOf 0 [(16, 0x80000000), (17, 0x7FFFFFFF)] []) = .next gt ∧
      exec (.bgtz rt 16 12) (stateOf 0 [(16, 0x80000000), (17, 0x7FFFFFFF)] []) = .next lt ∧
      exec (.blez rt 16 12) (stateOf 0 [(16, 0x80000000), (17, 0x7FFFFFFF)] []) = .next ge :=
  fun _ _ => ⟨_, _, _, _, _, _, rfl, rfl, rfl, rfl, rfl, rfl⟩

/-- A jump to 0, and an unknown instruction at pc 0: the two cases in which the source's pc passes below 0. -/
theorem witness_CompensatingDecrementAgrees :
    (∃ (s t : State) (rest : List Request), s.requests = .word 0x0800000000000000#64 :: rest ∧ step s = .next t) ∧
    (∃ (s t : State) (rest : List Request), s.pc = 0 ∧ s.requests = lineOf "FOO" :: rest ∧ step s = .next t) :=
  ⟨⟨stateOf 0x44 [] [.word 0x0800000000000000#64], afterOf 0 [] (traced (.j 0x02 0)), [], rfl,
      next_of_nextOf (by decide)⟩,
    ⟨stateOf 0 [] [lineOf "FOO"], afterOf 0 [] (faulted (.unknownInstruction (.mnemonic ['F', 'O', 'O']))), [], rfl, rfl,
      next_of_nextOf (by decide)⟩⟩

theorem witness_StepRunsDecodedInstruction :
    ∃ (s : State) (req : Request) (rest : List Request) (i : Instr),
      s.requests = req :: rest ∧ req.wf = true ∧ frontEnd req = .exec i :=
  ⟨stateOf 0 [] [longestAdd], longestAdd, [], .add 8 16 17, rfl, by decide, by decide⟩

/-- An unknown word, and a blank line of the greatest length. -/
theorem witness_FaultCycleOnlyReports :
    (∃ (s : State) (req : Request) (rest : List Request) (info : UnknownInfo),
      s.requests = req :: rest ∧ req.wf = true ∧ frontEnd req = .fault (.unknownInstruction info)) ∧
    (∃ (s : State) (req : Request) (rest : List Request),
      s.requests = req :: rest ∧ req.wf = true ∧ frontEnd req = .fault .noMnemonic) :=
  ⟨⟨stateOf 0 [] [.word 0#64], .word 0#64, [], .word 0#64, rfl, rfl, by decide⟩,
    ⟨stateOf 0 [] [.line longestBlank], .line longestBlank, [], rfl, by decide, by decide⟩⟩

theorem witness_CycleCompletesWithOneResult : ∃ s : State, s.inContract = true ∧ s.requests ≠ [] :=
  ⟨stateOf 0 [] [longestAdd, .line longestBlank], by decide, by decide⟩

/-- A line of 64 characters is refused. -/
theorem witness_OnlyLongLinesAreRefused :
    ∃ s : State, step s = .refused .lineTooLong ∧
      ∃ text rest, s.requests = .line text :: rest ∧ 63 < text.length :=
  ⟨stateOf 0 [] [.line (List.replicate 64 ' ')], rfl, List.replicate 64 ' ', [], rfl, by decide⟩

theorem witness_NoRequestHoldsState : State.reset.requests = [] := rfl

theorem witness_TraceIsFunctionOfInstruction :
    (∃ (s : State) (req : Request) (rest : List Request) (i : Instr),
      s.requests = req :: rest ∧ req.wf = true ∧ frontEnd req = .exec i) ∧
    (∃ (s : State) (req : Request) (rest : List Request) (r : FaultReport),
      s.requests = req :: rest ∧ req.wf = true ∧ frontEnd req = .fault r) :=
  ⟨witness_StepRunsDecodedInstruction,
    ⟨stateOf 0 [] [.line longestBlank], .line longestBlank, [], .noMnemonic, rfl, by decide, by decide⟩⟩

theorem witness_TraceIsFieldsOfWord : ∃ t, exec (.beq 0 31 0xFFFFFFF8) State.reset = .next t := ⟨_, rfl⟩

/-- A step of each kind of record and of report, at the ends of the pc's range. -/
theorem witness_PcMovesOnlyAsReported :
    (∃ s t : State, s.requests ≠ [] ∧ step s = .next t ∧ t.outputs.trace = some (.r 0 16 17 8 0 0x20)) ∧
    (∃ s t : State, s.requests ≠ [] ∧ step s = .next t ∧ t.outputs.trace = some (.i 0x08 0 9 10)) ∧
    (∃ s t : State, s.requests ≠ [] ∧ step s = .next t ∧ t.outputs.trace = some (.j 0x02 8)) ∧
    (∃ s t : State, s.requests ≠ [] ∧ step s = .next t ∧ t.outputs.trace = some (.j 0x04 12) ∧ t.pc = 12) ∧
    (∃ s t : State, s.requests ≠ [] ∧ step s = .next t ∧ t.outputs.trace = some (.j 0x05 64) ∧ t.pc = s.pc + 4) ∧
    (∃ s t : State, s.requests ≠ [] ∧ step s = .next t ∧ t.outputs.err = some (.unknownInstruction (.word 0#64))) ∧
    (∃ s t : State, s.requests ≠ [] ∧ step s = .next t ∧ t.outputs.err = some .noMnemonic) :=
  ⟨⟨stateOf 0xFFFFFFFC [] [.word 0x0211402000000000#64], afterOf 0 [] (traced (.r 0 16 17 8 0 0x20)), by decide,
      next_of_nextOf (by decide), rfl⟩,
    ⟨stateOf 0 [] [.word 0x200900000000000A#64], afterOf 4 [(9, 10)] (traced (.i 0x08 0 9 10)), by decide,
      next_of_nextOf (by decide), rfl⟩,
    ⟨stateOf 0xFFFFFFFC [] [.word 0x0800000000000008#64], afterOf 8 [] (traced (.j 0x02 8)), by decide,
      next_of_nextOf (by decide), rfl⟩,
    ⟨stateOf 0 [] [.word 0x121000000000000C#64], afterOf 12 [] (traced (.j 0x04 12)), by decide,
      next_of_nextOf (by decide), rfl, rfl⟩,
    ⟨stateOf 0xFFFFFFFC [] [.word 0x1500000000000040#64], afterOf 0 [] (traced (.j 0x05 64)), by decide,
      next_of_nextOf (by decide), rfl, rfl⟩,
    ⟨stateOf 0 [] [.word 0#64], afterOf 0 [] (faulted (.unknownInstruction (.word 0#64))), by decide,
      next_of_nextOf (by decide), rfl⟩,
    ⟨stateOf 0xFFFFFFFC [] [.line []], afterOf 0 [] (faulted .noMnemonic), by decide, next_of_nextOf (by decide), rfl⟩⟩

/-- R and I records with a destination other than `$zero` (Z2, Z1) and with `$zero`, a jump record and a report. -/
theorem witness_OnlyTheDestinationChanges :
    (∃ s t : State, s.requests ≠ [] ∧ step s = .next t ∧ t.outputs.trace = some (.r 0 0 16 8 0 0x25) ∧ (8 : Reg) ≠ 0) ∧
    (∃ s t : State, s.requests ≠ [] ∧ step s = .next t ∧ t.outputs.trace = some (.r 0 16 16 0 0 0x20)) ∧
    (∃ s t : State, s.requests ≠ [] ∧ step s = .next t ∧ t.outputs.trace = some (.i 0x08 0 31 5) ∧ (31 : Reg) ≠ 0) ∧
    (∃ s t : State, s.requests ≠ [] ∧ step s = .next t ∧ t.outputs.trace = some (.i 0x08 0 0 5)) ∧
    (∃ s t : State, s.requests ≠ [] ∧ step s = .next t ∧ t.outputs.trace = some (.j 0x04 64)) ∧
    (∃ s t : State, s.requests ≠ [] ∧ step s = .next t ∧ t.outputs.err.isSome = true) :=
  ⟨⟨stateOf 0 [(0, 66), (16, 33)] [lineOf "OR $t0, $zero, $s0"], afterOf 4 [(16, 33), (8, 33)]
      (traced (.r 0 0 16 8 0 0x25)), by decide, next_of_nextOf (by decide), rfl, by decide⟩,
    ⟨stateOf 0 [(16, 33)] [lineOf "ADD $zero, $s0, $s0"], afterOf 4 [(0, 66), (16, 33)] (traced (.r 0 16 16 0 0 0x20)),
      by decide, next_of_nextOf (by decide), rfl⟩,
    ⟨stateOf 0 [(0, 1)] [lineOf "ADDI $ra, $zero, 5"], afterOf 4 [(31, 5)] (traced (.i 0x08 0 31 5)), by decide,
      next_of_nextOf (by decide), rfl, by decide⟩,
    ⟨stateOf 0 [] [lineOf "ADDI $zero, $zero, 5"], afterOf 4 [(0, 5)] (traced (.i 0x08 0 0 5)), by decide,
      next_of_nextOf (by decide), rfl⟩,
    ⟨stateOf 0 [(0, 77)] [lineOf "BEQ $zero, $zero, 64"], afterOf 64 [] (traced (.j 0x04 64)), by decide,
      next_of_nextOf (by decide), rfl⟩,
    ⟨stateOf 0 [(0, 77)] [.line []], afterOf 4 [] (faulted .noMnemonic), by decide, next_of_nextOf (by decide), rfl⟩⟩

theorem witness_ZeroRegisterIsNeverReadBack : (stateOf 0 [(0, 5)] [lineOf "ADD $t0, $zero, $zero"]).requests ≠ [] := by
  decide

/-- Z9: the second cycle writes `$zero` again. -/
theorem witness_ZeroRegisterWriteIsVisible :
    ∃ (s t u : State) (rest : List Request), s.requests = .word (encode (.addi 0 0 5)) :: .word 0x2000000000000001#64 :: rest ∧
      step s = .next t ∧ step t = .next u ∧ u.readReg 0 ≠ 0 :=
  ⟨stateOf 0 [] [.word (encode (.addi 0 0 5)), .word 0x2000000000000001#64],
    { afterOf 4 [(0, 5)] (traced (.i 0x08 0 0 5)) with requests := [.word 0x2000000000000001#64] },
    afterOf 8 [(0, 1)] (traced (.i 0x08 0 0 1)), [], rfl, next_of_nextOf (by decide), next_of_nextOf (by decide),
    by decide⟩

theorem witness_PcAndOutputsAreNeverRead : ∃ s t : State, s.requests ≠ [] ∧ step s = .next t :=
  ⟨stateOf 0xFFFFFFFC [] [.line []], afterOf 0 [] (faulted .noMnemonic), by decide, next_of_nextOf (by decide)⟩

/-- Two states that differ in the pc, in `x[0]` and in the outputs, and one step of the first. -/
theorem witness_RunsIgnorePcZeroAndOutputs :
    ∃ s s' t : State, s ≠ s' ∧ SameButPcAndZero s s' ∧ run 1 s = .next t ∧ s.requests ≠ [] :=
  ⟨stateOf 0 [(8, 7)] [.line []], { stateOf 0x40 [(0, 9), (8, 7)] [.line []] with outputs := faulted .tooManyOperands },
    afterOf 4 [(8, 7)] (faulted .noMnemonic), by decide, ⟨by decide, rfl⟩, next_of_nextOf (by decide), by decide⟩

theorem witness_StepKeepsInvariant : ∃ s t : State, s.Inv ∧ s.requests ≠ [] ∧ step s = .next t :=
  ⟨stateOf 0 [] [.word 0#64], afterOf 0 [] (faulted (.unknownInstruction (.word 0#64))), by decide, by decide,
    next_of_nextOf (by decide)⟩

theorem witness_RunsInContractNeverStop : ∃ s : State, s.Inv ∧ s.requests.length = 2 :=
  ⟨stateOf 0 [] [longestAdd, .line longestBlank], by decide, rfl⟩

theorem witness_EncodeOfDecodedWord : decodeWord 0x035BF81800000000#64 = .exec (.mult 31 26 27) := by decide

/-- A row and a word on each side of the equivalence. -/
theorem witness_MatchAndMaskTableDecodes :
    ∃ row ∈ opcodeRows, (∃ iw : InstrWord, iw &&& row.mask = row.pattern) ∧
      (∃ iw : InstrWord, iw &&& row.mask ≠ row.pattern) :=
  ⟨⟨"J", maskJ, 0x0800000000000000#64⟩, by decide, ⟨0x08000000FFFFFFFF#64, by decide⟩, ⟨0x0A00000000000008#64, by decide⟩⟩

theorem witness_IllegalWordsAreUnknown :
    legalWord 0xFFFFFFFFFFFFFFFF#64 = false ∧
    decodeWord 0xFFFFFFFFFFFFFFFF#64 = .fault (.unknownInstruction (.word 0xFFFFFFFFFFFFFFFF#64)) := by decide

theorem witness_RegisterNamesAreBijective : idx "$zero".toList = some 0 ∧ idx "$ra".toList = some 31 := by decide

/-- Both ends of the range, parsed and taken apart into sign and digits. -/
theorem witness_LiteralsAreSignedDecimal :
    parseLit "-2147483648".toList = some 0x80000000#32 ∧ parseLit "2147483647".toList = some 0x7FFFFFFF#32 ∧
    "-2147483648".toList = ['-'] ++ "2147483648".toList ∧
    (∀ c ∈ "2147483648".toList, c.isDigit = true) ∧
    (Nat.ofDigits 10 ("2147483648".toList.reverse.map fun c => c.toNat - '0'.toNat) : Nat) = 2147483648 :=
  ⟨by decide, by decide, by decide, List.all_eq_true.mp (by decide), by
    have h : "2147483648".toList.reverse.map (fun c => c.toNat - '0'.toNat) = [8, 4, 6, 3, 8, 4, 7, 4, 1, 2] := by decide
    rw [h]; norm_num [Nat.ofDigits]⟩

/-- K2, taken apart. -/
theorem witness_SpacingIsFree :
    let pieces := [("   ".toList, "$t0".toList, " ".toList), ("  ".toList, "$s0".toList, " ".toList),
      ([], "$s1".toList, "  \n".toList)]
    "  ".toList.all isWs = true ∧ "ADD".toList ≠ [] ∧ "ADD".toList.all (fun c => !isWs c) = true ∧
    " ".toList ≠ [] ∧ " ".toList.all isWs = true ∧ pieces ≠ [] ∧ pieces.length ≤ 3 ∧ pieces.map (fun p => p.2.1) ≠ [[]] ∧
    (∀ p ∈ pieces, p.1.all isWs = true ∧ p.2.2.all isWs = true ∧ ',' ∉ p.2.1 ∧ trim p.2.1 = p.2.1) := by decide

theorem witness_FrontEndsAgree :
    assemble ("ADD $t0, $s0, $s1".toList ++ List.replicate 46 ' ') = some 0x0211402000000000#64 ∧
    longestAdd.wf = true := by decide

/-- The empty line and the longest blank one. -/
theorem witness_BlankLineReportsNoMnemonic :
    ∀ text, text = [] ∨ text = longestBlank →
      (stateOf 0 [] [.line text]).requests = .line text :: [] ∧ text.length ≤ 63 ∧ (∀ c ∈ text, c = ' ' ∨ c = '\n') := by
  rintro text (rfl | rfl) <;> simp [stateOf, longestBlank]

/-- K19: exactly three commas. -/
theorem witness_ThreeCommasReportTooManyOperands :
    (stateOf 0 [] [lineOf "ADD ,,,"]).requests = [.line ([] ++ "ADD".toList ++ ' ' :: ",,,".toList)] ∧
    ([] ++ "ADD".toList ++ ' ' :: ",,,".toList).length ≤ 63 ∧ ([] : List Char).all isWs = true ∧ "ADD".toList ≠ [] ∧
    "ADD".toList.all (fun c => !isWs c) = true ∧ isWs ' ' = true ∧ 3 ≤ ",,,".toList.count ',' := by decide

theorem witness_UnknownInstructionLeavesPc :
    ((stateOf 0 [] [lineOf "FOO 1, 2, 3"]).requests = [lineOf "FOO 1, 2, 3"] ∧ "FOO 1, 2, 3".toList.length ≤ 63 ∧
      tokenize "FOO 1, 2, 3".toList = .ok "FOO".toList [['1'], ['2'], ['3']] ∧ "FOO".toList ∉ mnemonics) ∧
    ((stateOf 0 [] [.word 0#64]).requests = [.word 0#64] ∧ ∀ row ∈ opcodeRows, 0#64 &&& row.mask ≠ row.pattern) := by
  decide

/-- A line for each clause: F19 and F15 (count), F33, F36 (register), F52, F46 (literal), and V1, V31 (none fails). -/
theorem witness_OperandChecksInOrder :
    tokenize "J".toList = .ok "J".toList [] ∧ tokenize "ADD $t0, $t1".toList = .ok "ADD".toList ["$t0".toList, "$t1".toList] ∧
    (tokenize "ADD $t0, $t1, 5".toList = .ok "ADD".toList ["$t0".toList, "$t1".toList, ['5']] ∧ idx ['5'] = none) ∧
    tokenize "BEQ $t0, 5, 12".toList = .ok "BEQ".toList ["$t0".toList, ['5'], ['1', '2']] ∧
    (tokenize "J abc".toList = .ok "J".toList ["abc".toList] ∧ parseLit "abc".toList = none) ∧
    (tokenize "ADDI $t0, $zero, ".toList = .ok "ADDI".toList ["$t0".toList, "$zero".toList, []] ∧ parseLit [] = none ∧
      idx "$t0".toList = some 8 ∧ idx "$zero".toList = some 0) ∧
    (tokenize "ADD $t0, $s0, $s1".toList = .ok "ADD".toList ["$t0".toList, "$s0".toList, "$s1".toList] ∧
      idx "$s0".toList = some 16 ∧ idx "$s1".toList = some 17) ∧
    (tokenize "ADDI $t1, $zero, 10".toList = .ok "ADDI".toList ["$t1".toList, "$zero".toList, "10".toList] ∧
      idx "$t1".toList = some 9 ∧ parseLit "10".toList = some 10#32) := by decide

theorem witness_HostPrintsOneLine :
    (∃ s t : State, s.requests ≠ [] ∧ step s = .next t ∧ t.outputs.trace.isSome = true) ∧
    (∃ s t : State, s.requests ≠ [] ∧ step s = .next t ∧ t.outputs.err.isSome = true) :=
  ⟨⟨stateOf 0xFFFFFFFC [] [.word 0x0800000000000008#64], afterOf 8 [] (traced (.j 0x02 8)), by decide,
      next_of_nextOf (by decide), rfl⟩,
    ⟨stateOf 0xFFFFFFFC [] [.line []], afterOf 0 [] (faulted .noMnemonic), by decide, next_of_nextOf (by decide), rfl⟩⟩

end Sys2Proof.Tests
end

section
/-! PROOFS. The encoding family: the trace record a cycle emits (spec/30_encoding.md R100, R101) and the register names
(R95). -/

namespace Sys2Proof.Machine

/-- The cycle completes, the trace output carries exactly the given record and the `err` output nothing (R9, R100). -/
def Emits (tr : Trace) (result : Result) : Prop := ∃ t, result = .next t ∧ t.outputs = ⟨some tr, none⟩

theorem execR_emits (funct : BitVec 6) (f : Word → Word → Word) (rd rs rt : Reg) (s : State) :
    Emits (.r 0x00#6 rs rt rd 0 funct) (execR funct f rd rs rt s) :=
  let ⟨t, hnext, hwrote⟩ := execR_spec funct f rd rs rt s
  ⟨t, hnext, hwrote.outputs⟩

theorem execI_emits (op : BitVec 6) (f : Word → Word → Word) (rt rs : Reg) (lit : Word) (s : State) :
    Emits (.i op rs rt lit) (execI op f rt rs lit s) :=
  let ⟨t, hnext, hwrote⟩ := execI_spec op f rt rs lit s
  ⟨t, hnext, hwrote.outputs⟩

theorem execJump_emits (op : BitVec 6) (lit : Word) (s : State) : Emits (.j op lit) (execJump op lit s) :=
  let ⟨t, hnext, hmoved⟩ := execJump_spec op lit s
  ⟨t, hnext, hmoved.outputs⟩

/-- A branch emits its record whether or not it is taken (R101). -/
theorem execB_emits (op : BitVec 6) (cond : Word → Word → Bool) (rs rt : Reg) (lit : Word) (s : State) :
    Emits (.j op lit) (execB op cond rs rt lit s) :=
  let ⟨t, hnext, hmoved⟩ := execB_spec op cond rs rt lit s
  ⟨t, hnext, hmoved.outputs⟩

/-- Executing an instruction emits the record of that instruction, in every state: by the format of each constructor. -/
theorem exec_emits_recordOf (i : Instr) (s : State) : Emits (recordOf i) (exec i s) := by
  cases i with
  | add rd rs rt => exact execR_emits 0x20#6 addSigned rd rs rt s
  | addu rd rs rt => exact execR_emits 0x21#6 addUnsigned rd rs rt s
  | sub rd rs rt => exact execR_emits 0x22#6 subSigned rd rs rt s
  | subu rd rs rt => exact execR_emits 0x23#6 subUnsigned rd rs rt s
  | mult rd rs rt => exact execR_emits 0x18#6 mulSigned rd rs rt s
  | and rd rs rt => exact execR_emits 0x24#6 andBits rd rs rt s
  | or rd rs rt => exact execR_emits 0x25#6 orBits rd rs rt s
  | addi rt rs lit => exact execI_emits 0x08#6 addSigned rt rs lit s
  | andi rt rs lit => exact execI_emits 0x0C#6 andBits rt rs lit s
  | ori rt rs lit => exact execI_emits 0x0D#6 orBits rt rs lit s
  | j lit => exact execJump_emits 0x02#6 lit s
  | beq rs rt lit => exact execB_emits 0x04#6 condEqual rs rt lit s
  | bne rs rt lit => exact execB_emits 0x05#6 condNotEqual rs rt lit s
  | blez rs rt lit => exact execB_emits 0x06#6 condLessOrEqual rs rt lit s
  | bgtz rs rt lit => exact execB_emits 0x07#6 condGreater rs rt lit s

/-- Settles O24: the step is the cycle of the pending request, whose instruction emits its own record in any state and
whose fault is taken with no record. -/
theorem traceIsFunctionOfInstruction : Obligations.TraceIsFunctionOfInstruction := by
  unfold Obligations.TraceIsFunctionOfInstruction
  intro s req rest hreq hwf
  have hstep := (step_cons hreq).trans (cycle_of_wf hwf _)
  constructor
  · intro i hdecode
    rw [hstep, hdecode, executeOrFault_exec]
    exact exec_emits_recordOf i _
  · intro r hdecode
    rw [hstep, hdecode, executeOrFault_fault]
    exact ⟨_, rfl, takeFault_outputs _ r⟩

end Sys2Proof.Machine

namespace Sys2Proof

/-- A string with an index is the name of that index: the search of `idx` answers only an index whose name matches. -/
theorem eq_regName_of_idx_eq_some {s : List Char} {i : Reg} (h : idx s = some i) : s = regName i := by
  have hmatch : (regName i == s) = true := List.find?_some (p := fun k => regName k == s) h
  exact (eq_of_beq hmatch).symm

/-- Settles O42: the 32 names find their own index, and `idx` answers no other string. -/
theorem registerNamesAreBijective : Obligations.RegisterNamesAreBijective :=
  ⟨idx_regName, fun _ _ => eq_regName_of_idx_eq_some⟩

end Sys2Proof
end

section
/-! PROOFS. The R-format family: the word, the effect and the record of ADDU, SUBU, AND and OR
(spec/40_arith_logic_r.md R120, R122, R124, R126, R127) and the two readings of sums and differences (R129). -/

namespace Sys2Proof

/-- The R-format layout (R73): an instruction with R-format fields has the word that spells them out. -/
theorem encode_eq_of_fields_eq_ofR {i : Instr} {funct : BitVec 6} {rd rs rt : Reg}
    (h : i.fields = .ofR funct rd rs rt) :
    encode i = 0b000000#6 ++ regBits rs ++ regBits rt ++ regBits rd ++ 0b00000#5 ++ funct ++ 0#32 := by
  rw [encode, h]
  rfl

/-- A sum has the same 32 bits in both readings (R129): the readings agree modulo `2^32`, and so do their sums. -/
theorem bv32_unsigned_add_eq_signed (a b : Word) :
    bv32 (unsigned a + unsigned b) = bv32 (signed a + signed b) :=
  bv32_eq_of_emod_eq (Int.ModEq.add (signed_emod a) (signed_emod b)).symm

/-- A difference has the same 32 bits in both readings (R129). -/
theorem bv32_unsigned_sub_eq_signed (a b : Word) :
    bv32 (unsigned a - unsigned b) = bv32 (signed a - signed b) :=
  bv32_eq_of_emod_eq (Int.ModEq.sub (signed_emod a) (signed_emod b)).symm

end Sys2Proof

namespace Sys2Proof.Machine

@[simp] theorem getLsbD_andBits (a b : Word) (k : Nat) :
    (andBits a b).getLsbD k = (a.getLsbD k && b.getLsbD k) :=
  BitVec.getLsbD_and

@[simp] theorem getLsbD_orBits (a b : Word) (k : Nat) :
    (orBits a b).getLsbD k = (a.getLsbD k || b.getLsbD k) :=
  BitVec.getLsbD_or

/-- The contract of the R-format (R120) as the statements spell it: whatever holds of the operation's result holds of the
destination afterwards. -/
theorem execR_effect {P : Word → Prop} (funct : BitVec 6) (f : Word → Word → Word) (rd rs rt : Reg) (s : State)
    (hresult : P (f (s.readReg rs) (s.readReg rt))) :
    ∃ t, execR funct f rd rs rt s = .next t ∧ P (t.readReg rd) ∧
      (∀ i, i ≠ rd → t.readReg i = s.readReg i) ∧ t.pc = s.pc + 4 ∧
      t.outputs = ⟨some (.r 0x00#6 rs rt rd 0#5 funct), none⟩ ∧ t.requests = s.requests :=
  let ⟨t, hnext, hwrote⟩ := execR_spec funct f rd rs rt s
  ⟨t, hnext, hwrote.value ▸ hresult, hwrote.others, hwrote.pc, hwrote.outputs, hwrote.requests⟩

/-- Settles O2: the R-format contract with the unsigned sum, whose bits the signed reading shares. -/
theorem adduWritesUnsignedSum : Obligations.AdduWritesUnsignedSum := by
  unfold Obligations.AdduWritesUnsignedSum
  refine ⟨fun _ _ _ => encode_eq_of_fields_eq_ofR rfl, fun rd rs rt s => ?_,
    bv32_unsigned_add_eq_signed, by decide, by decide, by decide⟩
  exact execR_effect (P := (· = addUnsigned (s.readReg rs) (s.readReg rt))) 0x21#6 addUnsigned rd rs rt s rfl

/-- Settles O4: the R-format contract with the unsigned difference, whose bits the signed reading shares. -/
theorem subuWritesUnsignedDifference : Obligations.SubuWritesUnsignedDifference := by
  unfold Obligations.SubuWritesUnsignedDifference
  refine ⟨fun _ _ _ => encode_eq_of_fields_eq_ofR rfl, fun rd rs rt s => ?_,
    bv32_unsigned_sub_eq_signed, by decide, by decide, by decide⟩
  exact execR_effect (P := (· = subUnsigned (s.readReg rs) (s.readReg rt))) 0x23#6 subUnsigned rd rs rt s rfl

/-- Settles O6: the R-format contract with the bitwise and, read bit by bit. -/
theorem andWritesBitwiseAnd : Obligations.AndWritesBitwiseAnd := by
  unfold Obligations.AndWritesBitwiseAnd
  refine ⟨fun _ _ _ => encode_eq_of_fields_eq_ofR rfl, fun rd rs rt s => ?_, by decide, by decide, by decide⟩
  exact execR_effect (P := fun v => ∀ k, v.getLsbD k = ((s.readReg rs).getLsbD k && (s.readReg rt).getLsbD k))
    0x24#6 andBits rd rs rt s (getLsbD_andBits _ _)

/-- Settles O7: the R-format contract with the bitwise or, read bit by bit. -/
theorem orWritesBitwiseOr : Obligations.OrWritesBitwiseOr := by
  unfold Obligations.OrWritesBitwiseOr
  refine ⟨fun _ _ _ => encode_eq_of_fields_eq_ofR rfl, fun rd rs rt s => ?_, by decide, by decide, by decide⟩
  exact execR_effect (P := fun v => ∀ k, v.getLsbD k = ((s.readReg rs).getLsbD k || (s.readReg rt).getLsbD k))
    0x25#6 orBits rd rs rt s (getLsbD_orBits _ _)

end Sys2Proof.Machine
end

section
/-! PROOFS. The immediate family: the word, the effect and the record of ANDI and ORI (spec/41_immediate.md R140, R142,
R143). -/

namespace Sys2Proof

/-- The layout of the I-format and the B-format (R74, R76): an instruction with such fields has the word that spells them
out, with `rd`, `shamt` and `funct` zero and all 32 bits of the literal. -/
theorem encode_eq_of_fields_eq_ofIB {i : Instr} {op : BitVec 6} {rs rt : Reg} {lit : Word}
    (h : i.fields = .ofIB op rs rt lit) :
    encode i = op ++ regBits rs ++ regBits rt ++ 0b00000#5 ++ 0b00000#5 ++ 0b000000#6 ++ lit := by
  rw [encode, h]
  rfl

end Sys2Proof

namespace Sys2Proof.Machine

/-- The contract of the I-format (R140) as the statements spell it: whatever holds of the operation's result on the source
and the literal holds of the destination afterwards. -/
theorem execI_effect {P : Word → Prop} (op : BitVec 6) (f : Word → Word → Word) (rt rs : Reg) (lit : Word) (s : State)
    (hresult : P (f (s.readReg rs) lit)) :
    ∃ t, execI op f rt rs lit s = .next t ∧ P (t.readReg rt) ∧
      (∀ i, i ≠ rt → t.readReg i = s.readReg i) ∧ t.pc = s.pc + 4 ∧
      t.outputs = ⟨some (.i op rs rt lit), none⟩ ∧ t.requests = s.requests :=
  let ⟨t, hnext, hwrote⟩ := execI_spec op f rt rs lit s
  ⟨t, hnext, hwrote.value ▸ hresult, hwrote.others, hwrote.pc, hwrote.outputs, hwrote.requests⟩

/-- Settles O10: the I-format contract with the bitwise and of the source and the whole literal, read bit by bit. -/
theorem andiWritesBitwiseAnd : Obligations.AndiWritesBitwiseAnd := by
  unfold Obligations.AndiWritesBitwiseAnd
  refine ⟨fun _ _ _ => encode_eq_of_fields_eq_ofIB rfl, fun rt rs lit s => ?_,
    by decide, by decide, by decide, by decide, by decide, by decide⟩
  exact execI_effect (P := fun v => ∀ k, v.getLsbD k = ((s.readReg rs).getLsbD k && lit.getLsbD k))
    0x0C#6 andBits rt rs lit s (getLsbD_andBits _ _)

/-- Settles O11: the I-format contract with the bitwise or of the source and the whole literal, read bit by bit. -/
theorem oriWritesBitwiseOr : Obligations.OriWritesBitwiseOr := by
  unfold Obligations.OriWritesBitwiseOr
  refine ⟨fun _ _ _ => encode_eq_of_fields_eq_ofIB rfl, fun rt rs lit s => ?_,
    by decide, by decide, by decide, by decide, by decide⟩
  exact execI_effect (P := fun v => ∀ k, v.getLsbD k = ((s.readReg rs).getLsbD k || lit.getLsbD k))
    0x0D#6 orBits rt rs lit s (getLsbD_orBits _ _)

end Sys2Proof.Machine
end

section
/-! PROOFS. The branch family: the word, the effect and the record of BEQ and BNE (spec/43_branch.md R155 to R157). -/

namespace Sys2Proof.Machine

@[simp] theorem condEqual_eq_true_iff (a b : Word) : condEqual a b = true ↔ a = b := beq_iff_eq

@[simp] theorem condNotEqual_eq_true_iff (a b : Word) : condNotEqual a b = true ↔ a ≠ b := bne_iff_ne

/-- The contract of the B-format (R155) as the statements spell it: the pc goes to the literal exactly when the
proposition `P` that the condition decides on the two registers holds, and the record is emitted either way. -/
theorem execB_effect {P : Prop} [Decidable P] (op : BitVec 6) (cond : Word → Word → Bool) (rs rt : Reg) (lit : Word)
    (s : State) (hcond : cond (s.readReg rs) (s.readReg rt) = true ↔ P) :
    ∃ t, execB op cond rs rt lit s = .next t ∧ t.pc = (if P then lit else s.pc + 4) ∧
      (∀ i, t.readReg i = s.readReg i) ∧ t.outputs = ⟨some (.j op lit), none⟩ ∧ t.requests = s.requests :=
  let ⟨t, hnext, hmoved⟩ := execB_spec op cond rs rt lit s
  ⟨t, hnext, hmoved.pc.trans (if_congr hcond rfl rfl), hmoved.regs, hmoved.outputs, hmoved.requests⟩

/-- Settles O13: the B-format contract with the condition that the two registers are equal. -/
theorem beqBranchesWhenEqual : Obligations.BeqBranchesWhenEqual := by
  unfold Obligations.BeqBranchesWhenEqual
  refine ⟨fun _ _ _ => encode_eq_of_fields_eq_ofIB rfl, fun rs rt lit s => ?_, by decide, by decide⟩
  exact execB_effect 0x04#6 condEqual rs rt lit s (condEqual_eq_true_iff _ _)

/-- Settles O14: the B-format contract with the condition that the two registers differ. -/
theorem bneBranchesWhenDifferent : Obligations.BneBranchesWhenDifferent := by
  unfold Obligations.BneBranchesWhenDifferent
  refine ⟨fun _ _ _ => encode_eq_of_fields_eq_ofIB rfl, fun rs rt lit s => ?_, by decide, by decide⟩
  exact execB_effect 0x05#6 condNotEqual rs rt lit s (condNotEqual_eq_true_iff _ _)

end Sys2Proof.Machine
end

section
/-! PROOFS. The reset family: what the state after reset holds (spec/10_state.md R42; spec/70_reset_and_hazards.md
R201). -/

namespace Sys2Proof.Machine

@[simp] theorem reset_readReg (i : Reg) : State.reset.readReg i = 0#32 := Vector.getElem_replicate i.isLt
@[simp] theorem reset_pc : State.reset.pc = 0#32 := rfl
@[simp] theorem reset_outputs : State.reset.outputs = ⟨none, none⟩ := rfl

/-- Settles O35: the register file after reset is 32 copies of 0, so every index reads 0. -/
theorem resetStateIsZero : Obligations.ResetStateIsZero := by
  unfold Obligations.ResetStateIsZero
  exact ⟨reset_readReg, reset_pc, congrArg Outputs.trace reset_outputs, congrArg Outputs.err reset_outputs⟩

end Sys2Proof.Machine
end

section
/-! PROOFS. The instructions whose statements cite the contract of one format: ADD, SUB, MULT, ADDI, J, BLEZ and BGTZ,
and how they relate to each other (spec/40_arith_logic_r.md; spec/41_immediate.md; spec/42_jump.md; spec/43_branch.md). -/

namespace Sys2Proof

/-- A product has the same low 32 bits in both readings (R130). -/
theorem bv32_signed_mul_eq_unsigned (a b : Word) :
    bv32 (signed a * signed b) = bv32 (unsigned a * unsigned b) :=
  bv32_eq_of_emod_eq (Int.ModEq.mul (signed_emod a) (signed_emod b))

end Sys2Proof

namespace Sys2Proof.Machine

/-- Settles O1: the R-format contract with the signed sum. -/
theorem addWritesSignedSum : Obligations.AddWritesSignedSum := fun rd rs rt s =>
  execR_effect (P := (· = addSigned (s.readReg rs) (s.readReg rt))) 0x20#6 addSigned rd rs rt s rfl

/-- Settles O3: the R-format contract with the signed difference. -/
theorem subWritesSignedDifference : Obligations.SubWritesSignedDifference := fun rd rs rt s =>
  execR_effect (P := (· = subSigned (s.readReg rs) (s.readReg rt))) 0x22#6 subSigned rd rs rt s rfl

/-- Settles O5: the R-format contract with the low half of the signed product. -/
theorem multWritesLowProduct : Obligations.MultWritesLowProduct := fun rd rs rt s =>
  execR_effect (P := (· = mulSigned (s.readReg rs) (s.readReg rt))) 0x18#6 mulSigned rd rs rt s rfl

/-- Settles O9: the I-format contract with the signed sum of the source and the literal. -/
theorem addiWritesSignedSum : Obligations.AddiWritesSignedSum := fun rt rs lit s =>
  execI_effect (P := (· = addSigned (s.readReg rs) lit)) 0x08#6 addSigned rt rs lit s rfl

/-- Settles O12: the contract of the jump. -/
theorem jumpSetsPcToLiteral : Obligations.JumpSetsPcToLiteral := fun lit s =>
  let ⟨t, hnext, hmoved⟩ := execJump_spec 0x02#6 lit s
  ⟨t, hnext, hmoved.pc, hmoved.regs, hmoved.outputs, hmoved.requests⟩

@[simp] theorem condLessOrEqual_eq_true_iff (a b : Word) : condLessOrEqual a b = true ↔ signed a ≤ signed b :=
  decide_eq_true_iff

@[simp] theorem condGreater_eq_true_iff (a b : Word) : condGreater a b = true ↔ signed a > signed b :=
  decide_eq_true_iff

/-- Settles O15: the contract of the branches with the signed less-or-equal. -/
theorem blezBranchesWhenLessOrEqual : Obligations.BlezBranchesWhenLessOrEqual := fun rs rt lit s =>
  execB_effect 0x06#6 condLessOrEqual rs rt lit s (condLessOrEqual_eq_true_iff _ _)

/-- Settles O16: the contract of the branches with the signed greater-than. -/
theorem bgtzBranchesWhenGreater : Obligations.BgtzBranchesWhenGreater := fun rs rt lit s =>
  execB_effect 0x07#6 condGreater rs rt lit s (condGreater_eq_true_iff _ _)

/-- The operation alone decides what an R-format instruction leaves besides its record (R120): two with the same result
leave the same registers, pc and requests. -/
theorem execR_congr_up_to_outputs {funct funct' : BitVec 6} {f g : Word → Word → Word} {rd rs rt : Reg} {s t u : State}
    (o : Outputs) (hresult : f (s.readReg rs) (s.readReg rt) = g (s.readReg rs) (s.readReg rt))
    (ht : execR funct f rd rs rt s = .next t) (hu : execR funct' g rd rs rt s = .next u) :
    { t with outputs := o } = { u with outputs := o } := by
  simp only [execR, Host.Outcome.next.injEq] at ht hu
  rw [← ht, ← hu, State.regOperand, State.regOperand, hresult]
  rfl

/-- Settles O8: sums and differences have the same bits in both readings, so the two instructions differ in their record
only; the product's low half is the same in both readings too. -/
theorem signednessOnlyShowsInTrace : Obligations.SignednessOnlyShowsInTrace := by
  unfold Obligations.SignednessOnlyShowsInTrace
  intro rd rs rt s t u o
  refine ⟨?_, ?_, ?_⟩
  · exact execR_congr_up_to_outputs o (bv32_unsigned_add_eq_signed _ _).symm
  · exact execR_congr_up_to_outputs o (bv32_unsigned_sub_eq_signed _ _).symm
  · intro hmult
    obtain ⟨t', ht', hvalue, -⟩ := multWritesLowProduct rd rs rt s
    cases hmult.symm.trans ht'
    rw [hvalue, bv32_signed_mul_eq_unsigned]

/-- Where a branch ends, read off any state it answers (R155). -/
theorem execB_pc {P : Prop} [Decidable P] {op : BitVec 6} {cond : Word → Word → Bool} {rs rt : Reg} {lit : Word}
    {s t : State} (hcond : cond (s.readReg rs) (s.readReg rt) = true ↔ P) (h : execB op cond rs rt lit s = .next t) :
    t.pc = if P then lit else s.pc + 4 := by
  obtain ⟨t', ht', hpc, -⟩ := execB_effect op cond rs rt lit s hcond
  cases h.symm.trans ht'
  exact hpc

/-- Settles O17: each pc is a conditional on the compared registers, and the conditions of each pair exclude each other
and exhaust the cases. -/
theorem branchPairsAreComplements : Obligations.BranchPairsAreComplements := by
  unfold Obligations.BranchPairsAreComplements
  intro rs rt lit s eq ne le gt heq hne hle hgt
  have peq := execB_pc (condEqual_eq_true_iff _ _) heq
  have pne := execB_pc (condNotEqual_eq_true_iff _ _) hne
  have ple := execB_pc (condLessOrEqual_eq_true_iff _ _) hle
  have pgt := execB_pc (condGreater_eq_true_iff _ _) hgt
  refine ⟨?_, ?_, ?_, ?_⟩
  · by_cases h : s.readReg rs = s.readReg rt
    · exact .inl ⟨by rw [peq, if_pos h], by rw [pne, if_neg (not_not_intro h)]⟩
    · exact .inr ⟨by rw [peq, if_neg h], by rw [pne, if_pos h]⟩
  · by_cases h : signed (s.readReg rs) ≤ signed (s.readReg rt)
    · exact .inl ⟨by rw [ple, if_pos h], by rw [pgt, if_neg (not_lt_of_ge h)]⟩
    · exact .inr ⟨by rw [ple, if_neg h], by rw [pgt, if_pos (lt_of_not_ge h)]⟩
  · rintro rfl
    exact ⟨by simpa using peq, by simpa using pne, by simpa using ple, by simpa using pgt⟩
  · intro lt ge hlt hge
    exact ⟨execB_pc (condGreater_eq_true_iff _ _) hlt, execB_pc (condLessOrEqual_eq_true_iff _ _) hge⟩

end Sys2Proof.Machine
end

section
/-! PROOFS. The four formats, once for all instructions: which contract `exec` runs, which record it emits and what the
source program makes of the pc (spec/10_state.md R33; spec/30_encoding.md R100). -/

namespace Sys2Proof.Machine

/-- What the model says of an instruction, by its format: the contract that `exec` runs, the record, and the pc the
source program's executor leaves. -/
inductive Formatted (i : Instr) : Prop
  | r (funct : BitVec 6) (f : Word → Word → Word) (rd rs rt : Reg) (runs : exec i = execR funct f rd rs rt)
      (records : recordOf i = .r 0x00#6 rs rt rd 0 funct) (source : ∀ s, sourcePc (.exec i) s = s.pc)
  | i (op : BitVec 6) (f : Word → Word → Word) (rt rs : Reg) (lit : Word) (runs : exec i = execI op f rt rs lit)
      (records : recordOf i = .i op rs rt lit) (source : ∀ s, sourcePc (.exec i) s = s.pc)
  | jump (lit : Word) (runs : exec i = execJump 0x02#6 lit) (records : recordOf i = .j 0x02#6 lit)
      (source : ∀ s, sourcePc (.exec i) s = lit - 4)
  | branch (op : BitVec 6) (cond : Word → Word → Bool) (rs rt : Reg) (lit : Word) (isBranch : op ≠ 0x02#6)
      (runs : exec i = execB op cond rs rt lit) (records : recordOf i = .j op lit)
      (source : ∀ s, sourcePc (.exec i) s = sourceBranch (cond (s.readReg rs) (s.readReg rt)) lit s)

theorem instr_formatted (i : Instr) : Formatted i := by
  cases i with
  | add rd rs rt => exact .r 0x20#6 addSigned rd rs rt rfl rfl fun _ => rfl
  | addu rd rs rt => exact .r 0x21#6 addUnsigned rd rs rt rfl rfl fun _ => rfl
  | sub rd rs rt => exact .r 0x22#6 subSigned rd rs rt rfl rfl fun _ => rfl
  | subu rd rs rt => exact .r 0x23#6 subUnsigned rd rs rt rfl rfl fun _ => rfl
  | mult rd rs rt => exact .r 0x18#6 mulSigned rd rs rt rfl rfl fun _ => rfl
  | and rd rs rt => exact .r 0x24#6 andBits rd rs rt rfl rfl fun _ => rfl
  | or rd rs rt => exact .r 0x25#6 orBits rd rs rt rfl rfl fun _ => rfl
  | addi rt rs lit => exact .i 0x08#6 addSigned rt rs lit rfl rfl fun _ => rfl
  | andi rt rs lit => exact .i 0x0C#6 andBits rt rs lit rfl rfl fun _ => rfl
  | ori rt rs lit => exact .i 0x0D#6 orBits rt rs lit rfl rfl fun _ => rfl
  | j lit => exact .jump lit rfl rfl fun _ => rfl
  | beq rs rt lit => exact .branch 0x04#6 condEqual rs rt lit (by decide) rfl rfl fun _ => rfl
  | bne rs rt lit => exact .branch 0x05#6 condNotEqual rs rt lit (by decide) rfl rfl fun _ => rfl
  | blez rs rt lit => exact .branch 0x06#6 condLessOrEqual rs rt lit (by decide) rfl rfl fun _ => rfl
  | bgtz rs rt lit => exact .branch 0x07#6 condGreater rs rt lit (by decide) rfl rfl fun _ => rfl

/-- What an executed instruction leaves, told by the record it emits (R23, R31, R33). -/
inductive Executed (s t : State) : Trace → Prop
  | r {rs rt rd : Reg} {funct : BitVec 6} {v : Word} (wrote : Wrote rd v (.r 0x00#6 rs rt rd 0 funct) s t) :
      Executed s t (.r 0x00#6 rs rt rd 0 funct)
  | i {op : BitVec 6} {rs rt : Reg} {lit v : Word} (wrote : Wrote rt v (.i op rs rt lit) s t) :
      Executed s t (.i op rs rt lit)
  | jump {lit : Word} (moved : Moved lit (.j 0x02#6 lit) s t) : Executed s t (.j 0x02#6 lit)
  | branch {op : BitVec 6} {lit pc : Word} (isBranch : op ≠ 0x02#6) (ends : pc = lit ∨ pc = s.pc + 4)
      (moved : Moved pc (.j op lit) s t) : Executed s t (.j op lit)

/-- Every instruction completes, in every state, with the effect its record tells. -/
theorem exec_executed (i : Instr) (s : State) : ∃ t, exec i s = .next t ∧ Executed s t (recordOf i) := by
  cases instr_formatted i with
  | r funct f rd rs rt runs records _ =>
    obtain ⟨t, ht, hw⟩ := execR_spec funct f rd rs rt s
    exact ⟨t, runs ▸ ht, records ▸ .r hw⟩
  | i op f rt rs lit runs records _ =>
    obtain ⟨t, ht, hw⟩ := execI_spec op f rt rs lit s
    exact ⟨t, runs ▸ ht, records ▸ .i hw⟩
  | jump lit runs records _ =>
    obtain ⟨t, ht, hm⟩ := execJump_spec 0x02#6 lit s
    exact ⟨t, runs ▸ ht, records ▸ .jump hm⟩
  | branch op cond rs rt lit isBranch runs records _ =>
    obtain ⟨t, ht, hm⟩ := execB_spec op cond rs rt lit s
    exact ⟨t, runs ▸ ht, records ▸ .branch isBranch (ite_eq_or_eq _ _ _) hm⟩

theorem Executed.outputs {s t : State} {tr : Trace} (h : Executed s t tr) : t.outputs = ⟨some tr, none⟩ := by
  cases h with
  | r wrote => exact wrote.outputs
  | i wrote => exact wrote.outputs
  | jump moved => exact moved.outputs
  | branch _ _ moved => exact moved.outputs

theorem Executed.requests {s t : State} {tr : Trace} (h : Executed s t tr) : t.requests = s.requests := by
  cases h with
  | r wrote => exact wrote.requests
  | i wrote => exact wrote.requests
  | jump moved => exact moved.requests
  | branch _ _ moved => exact moved.requests

end Sys2Proof.Machine
end

section
/-! PROOFS. The word front end: decoding and encoding undo each other, and the match and mask table says which words are
legal (spec/30_encoding.md R72 to R84, R103). -/

namespace Sys2Proof

theorem mem_of_lookup_eq_some {α β : Type} [BEq α] [LawfulBEq α] {l : List (α × β)} {k : α} {v : β}
    (h : l.lookup k = some v) : (k, v) ∈ l := by
  obtain ⟨l₁, l₂, rfl, -⟩ := List.lookup_eq_some_iff.mp h
  simp

/-! ## From the instruction to the word and back -/

/-- R-format fields decode by the `funct` map (R73, R80). -/
theorem decode_ofR {funct : BitVec 6} {c : Reg → Reg → Reg → Instr} (h : functMap.lookup funct = some c)
    (rd rs rt : Reg) : (Fields.ofR funct rd rs rt).decode = some (c rd rs rt) := by
  simp [Fields.decode, Fields.decodeR, Fields.ofR, h]

/-- I-format fields decode by the I-format rows of the `op` map (R74, R79). -/
theorem decode_ofIB_immediate {op : BitVec 6} {c : Reg → Reg → Word → Instr} (hop : op ≠ 0x00#6)
    (h : immediateOpMap.lookup op = some c) (rs rt : Reg) (lit : Word) :
    (Fields.ofIB op rs rt lit).decode = some (c rt rs lit) := by
  simp [Fields.decode, Fields.decodeI, Fields.ofIB, hop, h]

/-- B-format fields decode by the B-format rows of the `op` map (R76, R79). -/
theorem decode_ofIB_branch {op : BitVec 6} {c : Reg → Reg → Word → Instr} (hop : op ≠ 0x00#6 ∧ op ≠ 0x02#6)
    (himm : immediateOpMap.lookup op = none) (h : branchOpMap.lookup op = some c) (rs rt : Reg) (lit : Word) :
    (Fields.ofIB op rs rt lit).decode = some (c rs rt lit) := by
  simp [Fields.decode, Fields.decodeI, Fields.decodeJ, Fields.decodeB, Fields.ofIB, hop, himm, h]

theorem decode_fields (i : Instr) : i.fields.decode = some i := by
  cases i with
  | add | addu | sub | subu | mult | and | or => exact decode_ofR rfl _ _ _
  | addi | andi | ori => exact decode_ofIB_immediate (by decide) rfl _ _ _
  | j => rfl
  | beq | bne | blez | bgtz => exact decode_ofIB_branch (by decide) rfl rfl _ _ _

/-- Settles O36: unpacking the packed fields gives the fields, which decode to the instruction they were made from. -/
theorem decodeOfEncodedWord : Obligations.DecodeOfEncodedWord := by
  unfold Obligations.DecodeOfEncodedWord
  intro i
  rw [decodeWord, encode, ofWord_toWord, decode_fields]

/-- Each row of the `funct` map builds instructions whose word carries its value. -/
theorem functMap_fields : ∀ row ∈ functMap, ∀ rd rs rt, (row.2 rd rs rt).fields = .ofR row.1 rd rs rt := by
  simp [functMap, Instr.fields]

/-- Each I-format row of the `op` map builds instructions whose word carries its value. -/
theorem immediateOpMap_fields :
    ∀ row ∈ immediateOpMap, ∀ rt rs lit, (row.2 rt rs lit).fields = .ofIB row.1 rs rt lit := by
  simp [immediateOpMap, Instr.fields]

/-- Each B-format row of the `op` map builds instructions whose word carries its value. -/
theorem branchOpMap_fields :
    ∀ row ∈ branchOpMap, ∀ rs rt lit, (row.2 rs rt lit).fields = .ofIB row.1 rs rt lit := by
  simp [branchOpMap, Instr.fields]

theorem fields_of_decodeR {f : Fields} {i : Instr} (hop : f.op = 0x00#6) (h : f.decodeR = some i) : i.fields = f := by
  unfold Fields.decodeR at h
  split at h
  · next hfixed =>
    obtain ⟨c, hc, rfl⟩ := Option.map_eq_some_iff.mp h
    rw [functMap_fields _ (mem_of_lookup_eq_some hc)]
    obtain ⟨hshamt, hlit⟩ := hfixed
    simp [Fields.ofR, ← hop, ← hshamt, ← hlit]
  · cases h

theorem fields_of_decodeI {f : Fields} {i : Instr} (h : f.decodeI = some i) : i.fields = f := by
  unfold Fields.decodeI at h
  split at h
  · next hfixed =>
    obtain ⟨c, hc, rfl⟩ := Option.map_eq_some_iff.mp h
    rw [immediateOpMap_fields _ (mem_of_lookup_eq_some hc)]
    obtain ⟨op, rs, rt, rd, shamt, funct, lit⟩ := f
    obtain ⟨rfl, rfl, rfl⟩ := hfixed
    simp [Fields.ofIB]
  · cases h

theorem fields_of_decodeJ {f : Fields} {i : Instr} (h : f.decodeJ = some i) : i.fields = f := by
  unfold Fields.decodeJ at h
  split at h
  · next hfixed =>
    obtain ⟨op, rs, rt, rd, shamt, funct, lit⟩ := f
    obtain ⟨rfl, rfl, rfl, rfl, rfl, rfl⟩ := hfixed
    cases h
    rfl
  · cases h

theorem fields_of_decodeB {f : Fields} {i : Instr} (h : f.decodeB = some i) : i.fields = f := by
  unfold Fields.decodeB at h
  split at h
  · next hfixed =>
    obtain ⟨c, hc, rfl⟩ := Option.map_eq_some_iff.mp h
    rw [branchOpMap_fields _ (mem_of_lookup_eq_some hc)]
    obtain ⟨op, rs, rt, rd, shamt, funct, lit⟩ := f
    obtain ⟨rfl, rfl, rfl⟩ := hfixed
    simp [Fields.ofIB]
  · cases h

/-- The fields that decode to an instruction are its own, whichever format decoded them (R78). -/
theorem fields_of_decode {f : Fields} {i : Instr} (h : f.decode = some i) : i.fields = f := by
  unfold Fields.decode at h
  split at h
  · next hop => exact fields_of_decodeR hop h
  · rw [Option.or_eq_some_iff, Option.or_eq_some_iff] at h
    obtain hI | ⟨-, hJ | ⟨-, hB⟩⟩ := h
    · exact fields_of_decodeI hI
    · exact fields_of_decodeJ hJ
    · exact fields_of_decodeB hB

/-- Settles O37: the word's fields are those of the instruction they decode to, and packing them gives the word. -/
theorem encodeOfDecodedWord : Obligations.EncodeOfDecodedWord := by
  unfold Obligations.EncodeOfDecodedWord
  intro iw i h
  unfold decodeWord at h
  split at h
  · next i' hdecode =>
    cases h
    rw [encode, fields_of_decode hdecode, toWord_ofWord]
  · cases h

/-- A word decodes to an instruction exactly when it is the instruction's word (R83). -/
theorem decodeWord_eq_exec_iff (iw : InstrWord) (i : Instr) : decodeWord iw = .exec i ↔ encode i = iw :=
  ⟨encodeOfDecodedWord iw i, fun h => h ▸ decodeOfEncodedWord i⟩

/-- The one fault of the word front end is the unknown word itself (R81). -/
theorem decodeWord_fault {iw : InstrWord} {r : FaultReport} (h : decodeWord iw = .fault r) :
    r = .unknownInstruction (.word iw) := by
  unfold decodeWord at h
  split at h
  · cases h
  · cases h
    rfl

/-! ## The match and mask table -/

theorem toWord_injective : Function.Injective Fields.toWord :=
  Function.LeftInverse.injective ofWord_toWord

@[simp] theorem and_allOnes_five (b : BitVec 5) : b &&& 31#5 = b := BitVec.and_allOnes
@[simp] theorem and_allOnes_six (b : BitVec 6) : b &&& 63#6 = b := BitVec.and_allOnes
@[simp] theorem and_allOnes_word (b : Word) : b &&& 4294967295#32 = b := BitVec.and_allOnes

/-- The R mask keeps `op`, `shamt`, `funct` and `lit` (R84). -/
theorem toWord_and_maskR (f : Fields) :
    f.toWord &&& maskR = Fields.toWord ⟨f.op, 0, 0, 0, f.shamt, f.funct, f.lit⟩ := by
  rw [maskR_eq, toWord_and_toWord]
  simp

/-- The I and B mask keeps `op`, `rd`, `shamt` and `funct` (R84). -/
theorem toWord_and_maskIB (f : Fields) :
    f.toWord &&& maskIB = Fields.toWord ⟨f.op, 0, 0, f.rd, f.shamt, f.funct, 0⟩ := by
  rw [maskIB_eq, toWord_and_toWord]
  simp

/-- The J mask keeps everything but `lit` (R84). -/
theorem toWord_and_maskJ (f : Fields) :
    f.toWord &&& maskJ = Fields.toWord ⟨f.op, f.rs, f.rt, f.rd, f.shamt, f.funct, 0⟩ := by
  rw [maskJ_eq, toWord_and_toWord]
  simp

/-- A word that matches an R-format row is the word of an instruction of that row (R73, R84). -/
theorem exists_encode_of_maskR {iw pattern : InstrWord} {funct : BitVec 6} {m : String} {c : Reg → Reg → Reg → Instr}
    (hfields : ∀ rd rs rt, (c rd rs rt).fields = .ofR funct rd rs rt) (hm : ∀ rd rs rt, (c rd rs rt).mnemonic = m)
    (hpattern : pattern = Fields.toWord ⟨0, 0, 0, 0, 0, funct, 0⟩) (h : iw &&& maskR = pattern) :
    ∃ i, encode i = iw ∧ i.mnemonic = m := by
  obtain ⟨⟨op, rs, rt, rd, shamt, fn, lit⟩, rfl⟩ : ∃ f : Fields, f.toWord = iw := ⟨_, toWord_ofWord iw⟩
  have hkept := toWord_injective ((toWord_and_maskR _).symm.trans (h.trans hpattern))
  simp only [Fields.mk.injEq, true_and] at hkept
  obtain ⟨rfl, rfl, rfl, rfl⟩ := hkept
  refine ⟨c (regOfBits rd) (regOfBits rs) (regOfBits rt), ?_, hm _ _ _⟩
  simp [encode, hfields, Fields.ofR]

/-- A word that matches an I-format or B-format row is the word of an instruction of that row (R74, R76, R84); `c` takes
the fields `rs` and `rt` in that order. -/
theorem exists_encode_of_maskIB {iw pattern : InstrWord} {op : BitVec 6} {m : String} {c : Reg → Reg → Word → Instr}
    (hfields : ∀ rs rt lit, (c rs rt lit).fields = .ofIB op rs rt lit) (hm : ∀ rs rt lit, (c rs rt lit).mnemonic = m)
    (hpattern : pattern = Fields.toWord ⟨op, 0, 0, 0, 0, 0, 0⟩) (h : iw &&& maskIB = pattern) :
    ∃ i, encode i = iw ∧ i.mnemonic = m := by
  obtain ⟨⟨op', rs, rt, rd, shamt, fn, lit⟩, rfl⟩ : ∃ f : Fields, f.toWord = iw := ⟨_, toWord_ofWord iw⟩
  have hkept := toWord_injective ((toWord_and_maskIB _).symm.trans (h.trans hpattern))
  simp only [Fields.mk.injEq, true_and, and_true] at hkept
  obtain ⟨rfl, rfl, rfl, rfl⟩ := hkept
  refine ⟨c (regOfBits rs) (regOfBits rt) lit, ?_, hm _ _ _⟩
  simp [encode, hfields, Fields.ofIB]

/-- A word that matches the row of J is the word of a jump (R75, R84). -/
theorem exists_encode_of_maskJ {iw : InstrWord} (h : iw &&& maskJ = 0x0800000000000000#64) :
    ∃ i, encode i = iw ∧ i.mnemonic = "J" := by
  obtain ⟨⟨op, rs, rt, rd, shamt, fn, lit⟩, rfl⟩ : ∃ f : Fields, f.toWord = iw := ⟨_, toWord_ofWord iw⟩
  have hpattern : 0x0800000000000000#64 = Fields.toWord ⟨0x02#6, 0, 0, 0, 0, 0, 0⟩ := by decide
  have hkept := toWord_injective ((toWord_and_maskJ _).symm.trans (h.trans hpattern))
  simp only [Fields.mk.injEq, and_true] at hkept
  obtain ⟨rfl, rfl, rfl, rfl, rfl, rfl⟩ := hkept
  exact ⟨.j lit, rfl, rfl⟩

/-- A word that matches a row is the word of an instruction of that row: the table row by row (R84). -/
theorem exists_encode_of_row : ∀ row ∈ opcodeRows, ∀ iw : InstrWord, iw &&& row.mask = row.pattern →
    ∃ i, encode i = iw ∧ i.mnemonic = row.mnemonic := by
  simp only [opcodeRows, List.forall_mem_cons]
  refine ⟨?add, ?addu, ?sub, ?subu, ?mult, ?and, ?or, ?addi, ?andi, ?ori, ?j, ?beq, ?bne, ?blez, ?bgtz, ?none⟩
  case add => exact fun _ => exists_encode_of_maskR (c := .add) (fun _ _ _ => rfl) (fun _ _ _ => rfl) (by decide)
  case addu => exact fun _ => exists_encode_of_maskR (c := .addu) (fun _ _ _ => rfl) (fun _ _ _ => rfl) (by decide)
  case sub => exact fun _ => exists_encode_of_maskR (c := .sub) (fun _ _ _ => rfl) (fun _ _ _ => rfl) (by decide)
  case subu => exact fun _ => exists_encode_of_maskR (c := .subu) (fun _ _ _ => rfl) (fun _ _ _ => rfl) (by decide)
  case mult => exact fun _ => exists_encode_of_maskR (c := .mult) (fun _ _ _ => rfl) (fun _ _ _ => rfl) (by decide)
  case and => exact fun _ => exists_encode_of_maskR (c := .and) (fun _ _ _ => rfl) (fun _ _ _ => rfl) (by decide)
  case or => exact fun _ => exists_encode_of_maskR (c := .or) (fun _ _ _ => rfl) (fun _ _ _ => rfl) (by decide)
  case addi =>
    exact fun _ => exists_encode_of_maskIB (c := fun rs rt => .addi rt rs) (fun _ _ _ => rfl) (fun _ _ _ => rfl)
      (by decide)
  case andi =>
    exact fun _ => exists_encode_of_maskIB (c := fun rs rt => .andi rt rs) (fun _ _ _ => rfl) (fun _ _ _ => rfl)
      (by decide)
  case ori =>
    exact fun _ => exists_encode_of_maskIB (c := fun rs rt => .ori rt rs) (fun _ _ _ => rfl) (fun _ _ _ => rfl)
      (by decide)
  case j => exact fun _ => exists_encode_of_maskJ
  case beq => exact fun _ => exists_encode_of_maskIB (c := .beq) (fun _ _ _ => rfl) (fun _ _ _ => rfl) (by decide)
  case bne => exact fun _ => exists_encode_of_maskIB (c := .bne) (fun _ _ _ => rfl) (fun _ _ _ => rfl) (by decide)
  case blez => exact fun _ => exists_encode_of_maskIB (c := .blez) (fun _ _ _ => rfl) (fun _ _ _ => rfl) (by decide)
  case bgtz => exact fun _ => exists_encode_of_maskIB (c := .bgtz) (fun _ _ _ => rfl) (fun _ _ _ => rfl) (by decide)
  case none => exact List.forall_mem_nil _

/-- The word of every instruction matches a row of the table that carries its mnemonic (R84). -/
theorem encode_matches (i : Instr) : Laws.EncodeMatches.Statement i := by
  cases i with
  | add => exact Laws.EncodeMatches.add _ _ _
  | addu => exact Laws.EncodeMatches.addu _ _ _
  | sub => exact Laws.EncodeMatches.sub _ _ _
  | subu => exact Laws.EncodeMatches.subu _ _ _
  | mult => exact Laws.EncodeMatches.mult _ _ _
  | and => exact Laws.EncodeMatches.and _ _ _
  | or => exact Laws.EncodeMatches.or _ _ _
  | addi => exact Laws.EncodeMatches.addi _ _ _
  | andi => exact Laws.EncodeMatches.andi _ _ _
  | ori => exact Laws.EncodeMatches.ori _ _ _
  | j => exact Laws.EncodeMatches.j _
  | beq => exact Laws.EncodeMatches.beq _ _ _
  | bne => exact Laws.EncodeMatches.bne _ _ _
  | blez => exact Laws.EncodeMatches.blez _ _ _
  | bgtz => exact Laws.EncodeMatches.bgtz _ _ _

theorem opcodeRows_mnemonics_distinct : opcodeRows.Pairwise (·.mnemonic ≠ ·.mnemonic) := by decide

theorem row_eq_of_mnemonic_eq : ∀ row ∈ opcodeRows, ∀ row' ∈ opcodeRows, row.mnemonic = row'.mnemonic → row = row' := by
  decide

/-- A row matches exactly the words of the instructions that carry its mnemonic (R84). -/
theorem and_mask_eq_pattern_iff {row : OpcodeRow} (hrow : row ∈ opcodeRows) (iw : InstrWord) :
    iw &&& row.mask = row.pattern ↔ ∃ i, encode i = iw ∧ i.mnemonic = row.mnemonic := by
  constructor
  · exact exists_encode_of_row row hrow iw
  · rintro ⟨i, rfl, hmnemonic⟩
    obtain ⟨row', hrow', hmnemonic', hmatch⟩ := encode_matches i
    rwa [row_eq_of_mnemonic_eq row hrow row' hrow' (hmnemonic.symm.trans hmnemonic'.symm)]

/-- Two rows that match the same word carry the same mnemonic. -/
theorem mnemonic_eq_of_spells {row row' : OpcodeRow} {iw : InstrWord} (hrow : row ∈ opcodeRows)
    (hrow' : row' ∈ opcodeRows) (h : row.spells iw = true) (h' : row'.spells iw = true) :
    row.mnemonic = row'.mnemonic := by
  obtain ⟨i, hi, hmnemonic⟩ := exists_encode_of_row row hrow iw (of_decide_eq_true h)
  obtain ⟨i', hi', hmnemonic'⟩ := exists_encode_of_row row' hrow' iw (of_decide_eq_true h')
  have hsame : Decoded.exec i = .exec i' :=
    ((decodeWord_eq_exec_iff iw i).mpr hi).symm.trans ((decodeWord_eq_exec_iff iw i').mpr hi')
  cases hsame
  exact hmnemonic.symm.trans hmnemonic'

/-- Settles O38: the words a row matches are the words of its instructions, which decode to them; two matching rows
would have one mnemonic, and the rows' mnemonics differ. -/
theorem matchAndMaskTableDecodes : Obligations.MatchAndMaskTableDecodes := by
  unfold Obligations.MatchAndMaskTableDecodes
  refine ⟨fun row hrow iw => ?_, fun iw => ?_⟩
  · simp only [decodeWord_eq_exec_iff]
    exact and_mask_eq_pattern_iff hrow iw
  · have hdistinct := opcodeRows_mnemonics_distinct.filter (·.spells iw)
    match hrows : opcodeRows.filter (·.spells iw) with
    | [] | [_] => simp [hrows]
    | row :: row' :: rest =>
      have hmem : ∀ r ∈ row :: row' :: rest, r ∈ opcodeRows ∧ r.spells iw = true := fun r hr =>
        List.mem_filter.mp (hrows ▸ hr)
      obtain ⟨hrow, hspells⟩ := hmem row (by simp)
      obtain ⟨hrow', hspells'⟩ := hmem row' (by simp)
      rw [hrows, List.pairwise_cons] at hdistinct
      exact absurd (mnemonic_eq_of_spells hrow hrow' hspells hspells') (hdistinct.1 row' (by simp))

/-- The legal words are the words of the instructions (R81, R84). -/
theorem legalWord_iff (iw : InstrWord) : legalWord iw = true ↔ ∃ i, encode i = iw := by
  simp only [legalWord, List.any_eq_true, OpcodeRow.spells, decide_eq_true_eq]
  constructor
  · rintro ⟨row, hrow, hmatch⟩
    obtain ⟨i, hi, -⟩ := exists_encode_of_row row hrow iw hmatch
    exact ⟨i, hi⟩
  · rintro ⟨i, rfl⟩
    obtain ⟨row, hrow, -, hmatch⟩ := encode_matches i
    exact ⟨row, hrow, hmatch⟩

/-- A word that is not legal decodes to the one fault of words (R81). -/
theorem decodeWord_of_not_legal {iw : InstrWord} (h : legalWord iw = false) :
    decodeWord iw = .fault (.unknownInstruction (.word iw)) := by
  cases hd : decodeWord iw with
  | exec i =>
    have hlegal : legalWord iw = true := (legalWord_iff iw).mpr ⟨i, encodeOfDecodedWord iw i hd⟩
    exact absurd (hlegal.symm.trans h) (by decide)
  | fault r => rw [decodeWord_fault hd]

theorem not_legal_of_decodeWord_fault {iw : InstrWord} {r : FaultReport} (h : decodeWord iw = .fault r) :
    legalWord iw = false := by
  by_contra hlegal
  obtain ⟨i, rfl⟩ := (legalWord_iff iw).mp (Bool.not_eq_false _ ▸ hlegal)
  exact nomatch h.symm.trans (decodeOfEncodedWord i)

/-- Settles O39: a word is the word of an instruction or decodes to its fault, and only the former match a row. -/
theorem illegalWordsAreUnknown : Obligations.IllegalWordsAreUnknown := fun _ =>
  ⟨⟨decodeWord_of_not_legal, not_legal_of_decodeWord_fault⟩, fun _ => decodeWord_fault⟩

/-! ## The count of the legal words -/

theorem encode_injective : Function.Injective encode := fun i i' h =>
  Decoded.exec.inj ((decodeOfEncodedWord i).symm.trans ((congrArg decodeWord h).trans (decodeOfEncodedWord i')))

/-- The legal words are as many as the instructions: `encode` is a bijection onto them (R83). -/
noncomputable def instrEquivLegalWord : Instr ≃ { iw : InstrWord // legalWord iw = true } :=
  (Equiv.ofInjective encode encode_injective).trans (Equiv.subtypeEquivRight fun iw => (legalWord_iff iw).symm)

/-- The operands of the instructions, format by format: 7 of the R-format, 3 of the I-format, the jump, 4 branches. -/
abbrev InstrOperands : Type :=
  (Fin 7 × Reg × Reg × Reg) ⊕ (Fin 3 × Reg × Reg × Word) ⊕ Word ⊕ (Fin 4 × Reg × Reg × Word)

/-- An instruction as its place within its format and its operands. -/
def Instr.toOperands : Instr → InstrOperands
  | .add rd rs rt => .inl (0, rd, rs, rt)
  | .addu rd rs rt => .inl (1, rd, rs, rt)
  | .sub rd rs rt => .inl (2, rd, rs, rt)
  | .subu rd rs rt => .inl (3, rd, rs, rt)
  | .mult rd rs rt => .inl (4, rd, rs, rt)
  | .and rd rs rt => .inl (5, rd, rs, rt)
  | .or rd rs rt => .inl (6, rd, rs, rt)
  | .addi rt rs lit => .inr (.inl (0, rt, rs, lit))
  | .andi rt rs lit => .inr (.inl (1, rt, rs, lit))
  | .ori rt rs lit => .inr (.inl (2, rt, rs, lit))
  | .j lit => .inr (.inr (.inl lit))
  | .beq rs rt lit => .inr (.inr (.inr (0, rs, rt, lit)))
  | .bne rs rt lit => .inr (.inr (.inr (1, rs, rt, lit)))
  | .blez rs rt lit => .inr (.inr (.inr (2, rs, rt, lit)))
  | .bgtz rs rt lit => .inr (.inr (.inr (3, rs, rt, lit)))

/-- The instruction with the given place within its format and the given operands. -/
def Instr.ofOperands : InstrOperands → Instr
  | .inl (k, rd, rs, rt) => (![Instr.add, .addu, .sub, .subu, .mult, .and, .or] k) rd rs rt
  | .inr (.inl (k, rt, rs, lit)) => (![Instr.addi, .andi, .ori] k) rt rs lit
  | .inr (.inr (.inl lit)) => .j lit
  | .inr (.inr (.inr (k, rs, rt, lit))) => (![Instr.beq, .bne, .blez, .bgtz] k) rs rt lit

/-- An instruction is its place within its format and its operands. -/
def instrEquivOperands : Instr ≃ InstrOperands where
  toFun := Instr.toOperands
  invFun := Instr.ofOperands
  left_inv i := by cases i <;> rfl
  right_inv := by
    rintro (⟨k, rd, rs, rt⟩ | ⟨k, rt, rs, lit⟩ | lit | ⟨k, rs, rt, lit⟩)
    · fin_cases k <;> rfl
    · fin_cases k <;> rfl
    · rfl
    · fin_cases k <;> rfl

theorem card_word : Nat.card Word = 2 ^ 32 := by
  rw [Nat.card_congr BitVec.equivFin.toEquiv, Nat.card_fin]

/-- Settles O40: the legal words are as many as the instructions, which are counted format by format. -/
theorem legalWordsCount : Obligations.LegalWordsCount := by
  unfold Obligations.LegalWordsCount
  rw [Nat.card_congr (instrEquivLegalWord.symm.trans instrEquivOperands)]
  simp only [Nat.card_sum, Nat.card_prod, Nat.card_fin, card_word]
  norm_num

/-- Settles O41: each word is evaluated. -/
theorem sampleWordsDecode : Obligations.SampleWordsDecode := by
  unfold Obligations.SampleWordsDecode
  decide

end Sys2Proof

namespace Sys2Proof.Machine

/-- The record as read off a word with known fields. -/
theorem recordOfWord_encode (i : Instr) : recordOfWord (encode i) = recordOf i := by
  rw [recordOfWord, encode, ofWord_toWord]
  cases i <;> simp [Instr.fields, Fields.ofR, Fields.ofIB, recordOf]

/-- Settles O25: the record an instruction emits is its own, which is read off its word. -/
theorem traceIsFieldsOfWord : Obligations.TraceIsFieldsOfWord := by
  unfold Obligations.TraceIsFieldsOfWord
  intro i s t h
  obtain ⟨t', ht', houtputs⟩ := exec_emits_recordOf i s
  cases h.symm.trans ht'
  rw [houtputs, recordOfWord_encode]

end Sys2Proof.Machine
end

section
/-! PROOFS. The cycle: what a step on a pending request answers (spec/10_state.md R26, R36; spec/60_exceptions.md
R171). -/

namespace Sys2Proof.Machine

/-- The state that steps 2 to 5 of the cycle work on: the first request taken off the stream and `x[0]` reset (R36). -/
def State.begun (s : State) : State := ({ s with requests := s.requests.tail } : State).zeroReset

@[simp] theorem begun_pc (s : State) : s.begun.pc = s.pc := rfl
@[simp] theorem begun_requests (s : State) : s.begun.requests = s.requests.tail := rfl
@[simp] theorem begun_readReg_zero (s : State) : s.begun.readReg 0 = 0#32 := readReg_zeroReset_zero _

theorem begun_readReg_of_ne (s : State) {i : Reg} (h : i ≠ 0) : s.begun.readReg i = s.readReg i :=
  readReg_zeroReset_of_ne _ h

/-- The first action of a cycle hides what `x[0]` held before (R25, R27 b). -/
theorem begun_writeReg_zero (s : State) (v : Word) : (s.writeReg 0 v).begun = s.begun := by
  refine state_ext (fun i => ?_) rfl rfl rfl
  by_cases h : i = 0
  · rw [h, begun_readReg_zero, begun_readReg_zero]
  · rw [begun_readReg_of_ne _ h, begun_readReg_of_ne _ h, readReg_writeReg_of_ne _ _ h]

/-- A step on a request within the contract carries out the decoded request. -/
theorem step_of_wf {s : State} {req : Request} {rest : List Request} (hreq : s.requests = req :: rest)
    (hwf : req.wf = true) : step s = executeOrFault (frontEnd req) s.begun := by
  rw [step_cons hreq, cycle_of_wf hwf, State.begun, hreq, List.tail_cons]

/-- A request that a step answers a next state for is within the contract. -/
theorem wf_of_step_next {s t : State} {req : Request} {rest : List Request} (hreq : s.requests = req :: rest)
    (h : step s = .next t) : req.wf = true := by
  by_contra hwf
  rw [step_cons hreq, cycle_of_not_wf (Bool.not_eq_true _ ▸ hwf)] at h
  exact nomatch h

/-- What a step on a pending request answers, when it answers a next state: the effect of an instruction, told by its
record, or a taken fault. -/
theorem step_next_cases {s t : State} (hne : s.requests ≠ []) (h : step s = .next t) :
    (∃ i, Executed s.begun t (recordOf i)) ∨ (∃ r, t = s.begun.takeFault r) := by
  obtain ⟨req, rest, hreq⟩ := List.exists_cons_of_ne_nil hne
  have hstep := h.symm.trans (step_of_wf hreq (wf_of_step_next hreq h))
  cases hd : frontEnd req with
  | exec i =>
    obtain ⟨t', ht', hexecuted⟩ := exec_executed i s.begun
    rw [hd, executeOrFault_exec, ht'] at hstep
    cases hstep
    exact .inl ⟨i, hexecuted⟩
  | fault r =>
    rw [hd, executeOrFault_fault] at hstep
    cases hstep
    exact .inr ⟨r, rfl⟩

/-- The result `(trace, err)` of a cycle, by the decoded request (R9, R100, R171). -/
def resultOf : Decoded → Outputs
  | .exec i => ⟨some (recordOf i), none⟩
  | .fault r => ⟨none, some r⟩

/-- Steps 4 and 5 of the cycle always complete, with the result of the decoded request. -/
theorem executeOrFault_completes (d : Decoded) (s : State) :
    ∃ t, executeOrFault d s = .next t ∧ t.requests = s.requests ∧ t.outputs = resultOf d := by
  cases d with
  | exec i =>
    obtain ⟨t, ht, hexecuted⟩ := exec_executed i s
    exact ⟨t, ht, hexecuted.requests, hexecuted.outputs⟩
  | fault r => exact ⟨_, rfl, takeFault_requests s r, takeFault_outputs s r⟩

/-- A cycle on a request within the contract completes, takes the request and puts its result on the output port. -/
theorem step_completes_of_wf {s : State} {req : Request} {rest : List Request} (hreq : s.requests = req :: rest)
    (hwf : req.wf = true) : ∃ t, step s = .next t ∧ t.requests = rest ∧ t.outputs = resultOf (frontEnd req) := by
  obtain ⟨t, ht, hrequests, houtputs⟩ := executeOrFault_completes (frontEnd req) s.begun
  exact ⟨t, (step_of_wf hreq hwf).trans ht, by rw [hrequests, begun_requests, hreq, List.tail_cons], houtputs⟩

/-- A taken fault, as the statements spell its effect (R171): the report on the port, `x[0]` reset, all else unchanged
but the pc. -/
theorem step_of_fault {s : State} {req : Request} {rest : List Request} {r : FaultReport}
    (hreq : s.requests = req :: rest) (hwf : req.wf = true) (hd : frontEnd req = .fault r) :
    ∃ t, step s = .next t ∧ t.outputs = ⟨none, some r⟩ ∧ t.pc = (if faultKeepsPc r then s.pc else s.pc + 4) ∧
      t.readReg 0 = 0 ∧ (∀ i, i ≠ 0 → t.readReg i = s.readReg i) ∧ t.requests = rest := by
  refine ⟨s.begun.takeFault r, ?_, takeFault_outputs _ r, takeFault_pc _ r, ?_, fun i hi => ?_, ?_⟩
  · rw [step_of_wf hreq hwf, hd, executeOrFault_fault]
  · rw [takeFault_readReg, begun_readReg_zero]
    rfl
  · rw [takeFault_readReg, begun_readReg_of_ne s hi]
  · rw [takeFault_requests, begun_requests, hreq, List.tail_cons]

/-- Settles O23: without a request the step is the held state. -/
theorem noRequestHoldsState : Obligations.NoRequestHoldsState := fun _ => step_nil

/-- Settles O20: the cycle takes the fault, whose pc is unchanged for the one kind that keeps it. -/
theorem faultCycleOnlyReports : Obligations.FaultCycleOnlyReports := by
  unfold Obligations.FaultCycleOnlyReports
  intro s req rest r hreq hwf hd
  obtain ⟨t, ht, houtputs, hpc, hzero, hothers, hrequests⟩ := step_of_fault hreq hwf hd
  refine ⟨t, ht, hzero, hothers, ?_, houtputs, hrequests⟩
  rw [hpc]
  cases r <;> rfl

/-- Settles O21: the pending request is within the contract, and its result is a record or a report. -/
theorem cycleCompletesWithOneResult : Obligations.CycleCompletesWithOneResult := by
  unfold Obligations.CycleCompletesWithOneResult
  intro s hcontract hne
  obtain ⟨req, rest, hreq⟩ := List.exists_cons_of_ne_nil hne
  have hwf : req.wf = true := List.all_eq_true.mp hcontract req (hreq ▸ List.mem_cons_self)
  obtain ⟨t, ht, hrequests, houtputs⟩ := step_completes_of_wf hreq hwf
  refine ⟨t, ht, by rw [hrequests, hreq, List.tail_cons], ?_⟩
  rw [houtputs]
  cases frontEnd req <;> simp [resultOf]

/-- A request is outside the contract exactly when it is a line of more than 63 characters (R90). -/
theorem wf_eq_false_iff (req : Request) : req.wf = false ↔ ∃ text, req = .line text ∧ 63 < text.length := by
  cases req with
  | line text => simp [← Bool.not_eq_true]
  | word iw => simp

/-- A step is refused exactly on a request outside the contract. -/
theorem step_refused_iff (s : State) (r : Refusal) :
    step s = .refused r ↔ r = .lineTooLong ∧ ∃ req rest, s.requests = req :: rest ∧ req.wf = false := by
  constructor
  · intro h
    obtain ⟨-, hstep⟩ | ⟨req, rest, hreq, hwf, hstep⟩ | ⟨req, rest, i, hreq, hwf, hd, hstep⟩ |
        ⟨req, rest, r', hreq, hwf, hd, hstep⟩ := step_cases s
    · exact nomatch h.symm.trans hstep
    · cases h.symm.trans hstep
      exact ⟨rfl, req, rest, hreq, hwf⟩
    · obtain ⟨t, ht, -⟩ := exec_cases i ({ s with requests := rest } : State).zeroReset
      exact nomatch h.symm.trans (hstep.trans ht)
    · exact nomatch h.symm.trans hstep
  · rintro ⟨rfl, req, rest, hreq, hwf⟩
    rw [step_cons hreq, cycle_of_not_wf hwf]

/-- Settles O22: there is no fault that stops the machine, and the requests outside the contract are the long lines. -/
theorem onlyLongLinesAreRefused : Obligations.OnlyLongLinesAreRefused := by
  unfold Obligations.OnlyLongLinesAreRefused
  intro s
  refine ⟨fun f => (nomatch f), fun r => (step_refused_iff s r).trans (and_congr_right fun _ => ?_)⟩
  constructor
  · rintro ⟨req, rest, hreq, hwf⟩
    obtain ⟨text, rfl, hlong⟩ := (wf_eq_false_iff req).mp hwf
    exact ⟨text, rest, hreq, hlong⟩
  · rintro ⟨text, rest, hreq, hlong⟩
    exact ⟨.line text, rest, hreq, (wf_eq_false_iff _).mpr ⟨text, rfl, hlong⟩⟩

/-- The pc an executed instruction ends at is the source program's, plus the 4 its cycle adds (C2, D2). -/
theorem exec_pc_eq_sourcePc {i : Instr} {s t : State} (h : exec i s = .next t) : t.pc = sourcePc (.exec i) s + 4 := by
  cases instr_formatted i with
  | r funct f rd rs rt runs _ source =>
    obtain ⟨t', ht', hw⟩ := execR_spec funct f rd rs rt s
    cases h.symm.trans (runs ▸ ht')
    rw [source, hw.pc]
  | i op f rt rs lit runs _ source =>
    obtain ⟨t', ht', hw⟩ := execI_spec op f rt rs lit s
    cases h.symm.trans (runs ▸ ht')
    rw [source, hw.pc]
  | jump lit runs _ source =>
    obtain ⟨t', ht', hm⟩ := execJump_spec 0x02#6 lit s
    cases h.symm.trans (runs ▸ ht')
    rw [source, hm.pc, BitVec.sub_add_cancel]
  | branch op cond rs rt lit _ runs _ source =>
    obtain ⟨t', ht', hm⟩ := execB_spec op cond rs rt lit s
    cases h.symm.trans (runs ▸ ht')
    rw [source, hm.pc]
    cases cond (s.readReg rs) (s.readReg rt) <;> simp [sourceBranch]

/-- The pc a taken fault ends at is what the source program's error path leaves, plus 4: the 4 it takes off for an
unknown instruction comes back (C2, D12). -/
theorem takeFault_pc_eq_sourcePc (r : FaultReport) (s : State) : (s.takeFault r).pc = sourcePc (.fault r) s + 4 := by
  rw [takeFault_pc]
  cases r with
  | unknownInstruction info => simp [faultKeepsPc, sourcePc]
  | noMnemonic | tooManyOperands | argumentCountMismatch | registerNotFound | invalidImmediate | invalidAddress => rfl

/-- Settles O18: the step carries out the decoded request, and either way it can go the two forms of the pc agree. -/
theorem compensatingDecrementAgrees : Obligations.CompensatingDecrementAgrees := by
  unfold Obligations.CompensatingDecrementAgrees
  intro s t req rest hreq h
  have hstep := h.symm.trans (step_of_wf hreq (wf_of_step_next hreq h))
  change t.pc = sourcePc (frontEnd req) s.begun + 4
  cases hd : frontEnd req with
  | exec i =>
    rw [hd, executeOrFault_exec] at hstep
    exact exec_pc_eq_sourcePc hstep.symm
  | fault r =>
    rw [hd, executeOrFault_fault] at hstep
    cases hstep
    exact takeFault_pc_eq_sourcePc r s.begun

/-- Settles O26: where an executed instruction ends is told by its record, and where a fault ends by its kind. -/
theorem pcMovesOnlyAsReported : Obligations.PcMovesOnlyAsReported := by
  unfold Obligations.PcMovesOnlyAsReported
  intro s t hne h
  obtain ⟨i, hexecuted⟩ | ⟨r, rfl⟩ := step_next_cases hne h
  · generalize recordOf i = tr at hexecuted
    cases hexecuted with
    | r wrote => simp [wrote.outputs, wrote.pc]
    | i wrote => simp [wrote.outputs, wrote.pc]
    | jump moved => simp [moved.outputs, moved.pc]
    | branch isBranch ends moved =>
      simp only [moved.outputs, moved.pc]
      refine ⟨by simp, by simp, ?_, ?_, by simp, by simp⟩
      · rintro _ ⟨⟩
        exact absurd rfl isBranch
      · rintro _ _ ⟨⟩
        exact ends.imp_right fun hpc => ⟨isBranch, hpc⟩
  · simp only [takeFault_outputs, takeFault_pc, begun_pc]
    cases r <;> simp [faultKeepsPc]

/-- From the state after step 1 of the cycle, a state that differs at most in the register `d` differs from the state
before the cycle at most in `d` and in `x[0]`, which is 0 unless it is `d`. -/
theorem frame_of_begun_others {s t : State} {d : Reg} (h : ∀ i, i ≠ d → t.readReg i = s.begun.readReg i) :
    (∀ i, i ≠ d → i ≠ 0 → t.readReg i = s.readReg i) ∧ (d ≠ 0 → t.readReg 0 = 0) :=
  ⟨fun i hd hi => (h i hd).trans (begun_readReg_of_ne s hi), fun hd => (h 0 hd.symm).trans (begun_readReg_zero s)⟩

/-- Where no register changed after step 1 of the cycle, only `x[0]` changed in the cycle. -/
theorem frame_of_begun_regs {s t : State} (h : ∀ i, t.readReg i = s.begun.readReg i) :
    (∀ i, i ≠ 0 → t.readReg i = s.readReg i) ∧ t.readReg 0 = 0 :=
  ⟨fun i hi => (h i).trans (begun_readReg_of_ne s hi), (h 0).trans (begun_readReg_zero s)⟩

/-- Settles O27: an executed instruction writes at most the destination its record names, on registers of which only
`x[0]` was reset; a fault writes none. -/
theorem onlyTheDestinationChanges : Obligations.OnlyTheDestinationChanges := by
  unfold Obligations.OnlyTheDestinationChanges
  intro s t hne h
  obtain ⟨i, hexecuted⟩ | ⟨r, rfl⟩ := step_next_cases hne h
  · generalize recordOf i = tr at hexecuted
    cases hexecuted with
    | r wrote =>
      simp only [wrote.outputs]
      refine ⟨?_, by simp, by simp⟩
      rintro _ _ _ _ _ _ ⟨⟩
      exact frame_of_begun_others wrote.others
    | i wrote =>
      simp only [wrote.outputs]
      refine ⟨by simp, ?_, by simp⟩
      rintro _ _ _ _ ⟨⟩
      exact frame_of_begun_others wrote.others
    | jump moved | branch _ _ moved =>
      simp only [moved.outputs]
      exact ⟨by simp, by simp, fun _ => frame_of_begun_regs moved.regs⟩
  · simp only [takeFault_outputs]
    exact ⟨by simp, by simp, fun _ => frame_of_begun_regs (takeFault_readReg _ r)⟩

end Sys2Proof.Machine
end

section
/-! PROOFS. Numbers as text: decimal digits, literals, and how long they are (spec/30_encoding.md R96, R102). -/

namespace Sys2Proof

/-- The character of a decimal digit is a digit, and its code gives the digit's value. -/
theorem digitChar_isDigit_and_value :
    ∀ d < 10, (Char.ofNat (48 + d)).isDigit = true ∧ (Char.ofNat (48 + d)).toNat - 48 = d := by
  decide

theorem decimalDigits_isDigit (fuel n : Nat) : ∀ c ∈ decimalDigits fuel n, c.isDigit = true := by
  induction fuel generalizing n with
  | zero => simp [decimalDigits]
  | succ fuel ih =>
    rw [decimalDigits]
    split
    · next h => simpa using (digitChar_isDigit_and_value n h).1
    · simpa [or_imp, forall_and] using ⟨ih (n / 10), (digitChar_isDigit_and_value (n % 10) (n.mod_lt (by decide))).1⟩

theorem natText_isDigit (n : Nat) : ∀ c ∈ natText n, c.isDigit = true := decimalDigits_isDigit _ _

theorem natText_ne_nil (n : Nat) : natText n ≠ [] := by
  rw [natText, decimalDigits]
  split <;> simp

/-- Reading a text of digits goes on where its first part stopped. -/
theorem digitsValue_append (a b : List Char) (acc : Nat) :
    digitsValue (a ++ b) acc = (digitsValue a acc).bind (digitsValue b) := by
  induction a generalizing acc with
  | nil => rfl
  | cons c cs ih =>
    rw [List.cons_append, digitsValue, digitsValue, ih]
    split <;> rfl

/-- With fuel for every digit, the printed digits are read back as the number. -/
theorem digitsValue_decimalDigits {fuel n : Nat} (h : n < fuel) : digitsValue (decimalDigits fuel n) 0 = some n := by
  induction fuel generalizing n with
  | zero => simp at h
  | succ fuel ih =>
    rw [decimalDigits]
    split
    · next hn => simp [digitsValue, digitChar_isDigit_and_value n hn]
    · next hn =>
      obtain ⟨hdigit, hvalue⟩ := digitChar_isDigit_and_value (n % 10) (n.mod_lt (by decide))
      rw [digitsValue_append, ih (by omega)]
      simp only [Option.bind_some, digitsValue, hdigit, hvalue, if_true, Option.some.injEq]
      omega

theorem parseDigits_natText (n : Nat) : parseDigits (natText n) = some n := by
  rw [parseDigits, if_neg (by simpa using natText_ne_nil n), natText, digitsValue_decimalDigits n.lt_succ_self]

/-- A number below `10 ^ (k + 1)` has at most `k + 1` digits. -/
theorem decimalDigits_length_le (fuel : Nat) {n k : Nat} (h : n < 10 ^ (k + 1)) :
    (decimalDigits fuel n).length ≤ k + 1 := by
  induction fuel generalizing n k with
  | zero => simp [decimalDigits]
  | succ fuel ih =>
    rw [decimalDigits]
    split
    · simp
    · next hn =>
      cases k with
      | zero => omega
      | succ k => simpa using ih (Nat.div_lt_of_lt_mul (by rwa [pow_succ'] at h))

/-! ## Literals -/

/-- The text of an integer: an optional sign and one or more decimal digits (R96). -/
def SpellsInteger (s : List Char) (v : Int) : Prop :=
  ∃ sign digits : List Char, s = sign ++ digits ∧ (sign = [] ∨ sign = ['+'] ∨ sign = ['-']) ∧
    digits ≠ [] ∧ (∀ c ∈ digits, c.isDigit = true) ∧
    v = (if sign = ['-'] then -1 else 1) *
      (Nat.ofDigits 10 (digits.reverse.map fun c => c.toNat - '0'.toNat) : Nat)

/-- A run of digits is read exactly when it is not empty, as its value to the base 10. -/
theorem parseDigits_eq_some_iff (ds : List Char) (n : Nat) :
    parseDigits ds = some n ↔ ds ≠ [] ∧ (∀ c ∈ ds, c.isDigit = true) ∧
      n = Nat.ofDigits 10 (ds.reverse.map fun c => c.toNat - '0'.toNat) := by
  cases ds with
  | nil => simp [parseDigits]
  | cons c cs => simp [parseDigits, digitsValue_eq_some]

theorem spellsInteger_of_parseDigits {sign ds : List Char} {n : Nat} {v : Int}
    (hsign : sign = [] ∨ sign = ['+'] ∨ sign = ['-']) (h : parseDigits ds = some n)
    (hv : v = (if sign = ['-'] then -1 else 1) * (n : Int)) : SpellsInteger (sign ++ ds) v := by
  obtain ⟨hne, hdigits, rfl⟩ := (parseDigits_eq_some_iff ds n).mp h
  exact ⟨sign, ds, rfl, hsign, hne, hdigits, hv⟩

theorem parseInteger_minus (ds : List Char) :
    parseInteger ('-' :: ds) = (parseDigits ds).map fun n : Nat => -Int.ofNat n := by
  simp [parseInteger]

theorem parseInteger_plus (ds : List Char) : parseInteger ('+' :: ds) = (parseDigits ds).map Int.ofNat := by
  simp [parseInteger]

/-- A text whose first character is no sign is read as digits alone. -/
theorem parseInteger_unsigned {s : List Char} (h : ∀ c ∈ s.head?, c ≠ '-' ∧ c ≠ '+') :
    parseInteger s = (parseDigits s).map Int.ofNat := by
  cases s with
  | nil => rfl
  | cons c ds =>
    obtain ⟨hminus, hplus⟩ := h c rfl
    rw [parseInteger, if_neg hminus, if_neg hplus]

theorem head_not_sign_of_isDigit {ds : List Char} (h : ∀ c ∈ ds, c.isDigit = true) :
    ∀ c ∈ ds.head?, c ≠ '-' ∧ c ≠ '+' := by
  intro c hc
  have hdigit := h c (List.mem_of_mem_head? hc)
  constructor <;> (rintro rfl; exact absurd hdigit (by decide))

/-- `parseInteger` reads exactly the texts of integers, each as its integer (R96). -/
theorem parseInteger_eq_some_iff (s : List Char) (v : Int) : parseInteger s = some v ↔ SpellsInteger s v := by
  constructor
  · intro h
    match s with
    | [] => simp [parseInteger] at h
    | c :: ds =>
      by_cases hminus : c = '-'
      · subst hminus
        rw [parseInteger_minus] at h
        obtain ⟨n, hn, rfl⟩ := Option.map_eq_some_iff.mp h
        exact spellsInteger_of_parseDigits (sign := ['-']) (by simp) hn (by simp)
      · by_cases hplus : c = '+'
        · subst hplus
          rw [parseInteger_plus] at h
          obtain ⟨n, hn, rfl⟩ := Option.map_eq_some_iff.mp h
          exact spellsInteger_of_parseDigits (sign := ['+']) (by simp) hn (by simp)
        · rw [parseInteger_unsigned (by simp [hminus, hplus])] at h
          obtain ⟨n, hn, rfl⟩ := Option.map_eq_some_iff.mp h
          exact spellsInteger_of_parseDigits (sign := []) (by simp) hn (by simp)
  · rintro ⟨sign, digits, rfl, hsign, hne, hdigits, rfl⟩
    have hparse := (parseDigits_eq_some_iff digits _).mpr ⟨hne, hdigits, rfl⟩
    obtain rfl | rfl | rfl := hsign
    · rw [List.nil_append, parseInteger_unsigned (head_not_sign_of_isDigit hdigits), hparse]
      simp
    · rw [List.singleton_append, parseInteger_plus, hparse]
      simp
    · rw [List.singleton_append, parseInteger_minus, hparse]
      simp

/-- `parseLit` is `parseInteger` within the signed 32-bit range, as bits (R96, D6). -/
theorem parseLit_eq_some_iff (s : List Char) (w : Word) :
    parseLit s = some w ↔ ∃ v, parseInteger s = some v ∧ -(2 ^ 31) ≤ v ∧ v ≤ 2 ^ 31 - 1 ∧ w = bv32 v := by
  unfold parseLit
  cases parseInteger s with
  | none => simp
  | some v => simp [and_assoc, eq_comm (a := w)]

/-- Settles O43: a literal is the text of an integer in range, with that integer's bits. -/
theorem literalsAreSignedDecimal : Obligations.LiteralsAreSignedDecimal := by
  unfold Obligations.LiteralsAreSignedDecimal
  intro s w
  rw [parseLit_eq_some_iff]
  constructor
  · rintro ⟨v, hv, hrange⟩
    obtain ⟨sign, digits, hs, hsign, hne, hdigits, hvalue⟩ := (parseInteger_eq_some_iff s v).mp hv
    exact ⟨sign, digits, v, hs, hsign, hne, hdigits, hvalue, hrange⟩
  · rintro ⟨sign, digits, v, hs, hsign, hne, hdigits, hvalue, hrange⟩
    exact ⟨v, (parseInteger_eq_some_iff s v).mpr ⟨sign, digits, hs, hsign, hne, hdigits, hvalue⟩, hrange⟩

/-- The printed literal is read back as the signed integer it denotes. -/
theorem parseInteger_litText (w : Word) : parseInteger (litText w) = some (signed w) := by
  unfold litText
  split
  · next h =>
    rw [parseInteger_minus, parseDigits_natText]
    simp [abs_of_neg h]
  · next h =>
    rw [parseInteger_unsigned (head_not_sign_of_isDigit (natText_isDigit _)), parseDigits_natText]
    simp [abs_of_nonneg (not_lt.mp h)]

/-- Settles O44: the printed literal is its signed integer, which is in range and has the literal's bits. -/
theorem printedLiteralParsesBack : Obligations.PrintedLiteralParsesBack := by
  unfold Obligations.PrintedLiteralParsesBack
  intro w
  obtain ⟨hlow, hhigh⟩ := signed_range w
  exact (parseLit_eq_some_iff _ w).mpr ⟨signed w, parseInteger_litText w, hlow, hhigh, (bv32_signed w).symm⟩

/-- A printed literal is made of digits and a minus sign. -/
theorem litText_chars (w : Word) : ∀ c ∈ litText w, c = '-' ∨ c.isDigit = true := by
  unfold litText
  split
  · intro c hc
    exact (List.mem_cons.mp hc).imp_right (natText_isDigit _ c)
  · exact fun c hc => .inr (natText_isDigit _ c hc)

theorem litText_ne_nil (w : Word) : litText w ≠ [] := by
  unfold litText
  split
  · simp
  · exact natText_ne_nil _

/-- A printed literal has at most ten digits and a sign. -/
theorem litText_length_le (w : Word) : (litText w).length ≤ 11 := by
  obtain ⟨hlow, hhigh⟩ := signed_range w
  have hdigits : (natText (signed w).natAbs).length ≤ 10 := decimalDigits_length_le (k := 9) _ (by omega)
  unfold litText
  split
  · rw [List.length_cons]
    omega
  · omega

end Sys2Proof
end

section
/-! PROOFS. The tokenizer: white space is free, and what a tokenized line consists of (spec/30_encoding.md R91, R92). -/

namespace Sys2Proof

/-! ## Trimming and splitting -/

theorem trim_append_of_ws (x : List Char) {b : List Char} (hb : b.all isWs = true) : trim (x ++ b) = trim x := by
  have hb' : ∀ c ∈ b, isWs c = true := List.all_eq_true.mp hb
  unfold trim
  rw [List.dropWhile_append]
  split
  · next hblank => rw [List.isEmpty_iff.mp hblank, List.dropWhile_eq_nil_iff.mpr hb']
  · rw [List.reverse_append, List.dropWhile_append_of_pos (by simpa using hb')]

/-- White space around a text does not change its trimmed form (R92). -/
theorem trim_surrounded {a b : List Char} (x : List Char) (ha : a.all isWs = true) (hb : b.all isWs = true) :
    trim (a ++ x ++ b) = trim x := by
  rw [trim_append_of_ws _ hb]
  unfold trim
  rw [List.dropWhile_append_of_pos (List.all_eq_true.mp ha)]

theorem trim_eq_nil_of_blank {s : List Char} (h : s.all isWs = true) : trim s = [] :=
  trim_append_of_ws [] h

theorem comma_not_mem_of_blank {s : List Char} (h : s.all isWs = true) : ',' ∉ s := fun hmem =>
  absurd (List.all_eq_true.mp h ',' hmem) (by decide)

/-- Splitting at the commas undoes joining with commas (R92). -/
theorem splitCommas_intercalate {pieces : List (List Char)} (hne : pieces ≠ []) (h : ∀ p ∈ pieces, ',' ∉ p) :
    splitCommas ([','].intercalate pieces) = pieces := by
  induction pieces with
  | nil => exact absurd rfl hne
  | cons p ps ih =>
    have hp : ',' ∉ p := h p (by simp)
    cases ps with
    | nil => rw [List.intercalate_singleton, splitCommas_of_not_mem p hp]
    | cons q qs =>
      rw [List.intercalate_cons_cons, List.append_assoc, List.singleton_append, splitCommas_append _ _ hp,
        ih (by simp) fun r hr => h r (List.mem_cons_of_mem p hr)]

theorem append_intercalate_cons (a p : List Char) (ps : List (List Char)) :
    a ++ [','].intercalate (p :: ps) = [','].intercalate ((a ++ p) :: ps) := by
  cases ps <;> simp [List.intercalate]

/-- The operands of a text are its trimmed pieces, unless these are one empty piece (R92). -/
theorem operandsOf_eq {rest : List Char} {ops : List (List Char)} (h : (splitCommas rest).map trim = ops)
    (hne : ops ≠ [[]]) : operandsOf rest = ops := by
  unfold operandsOf
  split
  · next hblank =>
    rw [splitCommas_of_not_mem _ (comma_not_mem_of_blank hblank), List.map_singleton, trim_eq_nil_of_blank hblank] at h
    exact absurd h.symm hne
  · exact h

/-- The head of a text that begins with white space is white space. -/
theorem isWs_head_of_blank_append {sep rest : List Char} (hne : sep ≠ []) (h : sep.all isWs = true) :
    ∀ c ∈ (sep ++ rest).head?, isWs c = true := by
  obtain ⟨w, ws, rfl⟩ := List.exists_cons_of_ne_nil hne
  simp only [List.all_cons, Bool.and_eq_true] at h
  simpa using h.1

/-! ## Operands with white space around them -/

/-- An operand of SpacingIsFree, as the white space before it, its text and the white space after it: the text is
trimmed and has no comma. -/
def Spaced (p : List Char × List Char × List Char) : Prop :=
  p.1.all isWs = true ∧ p.2.2.all isWs = true ∧ ',' ∉ p.2.1 ∧ trim p.2.1 = p.2.1

/-- A spaced operand as it stands in the line. -/
abbrev spacedText (p : List Char × List Char × List Char) : List Char := p.1 ++ p.2.1 ++ p.2.2

theorem Spaced.comma_not_mem {p : List Char × List Char × List Char} (h : Spaced p) : ',' ∉ spacedText p := by
  obtain ⟨hbefore, hafter, hcomma, -⟩ := h
  simp [comma_not_mem_of_blank hbefore, comma_not_mem_of_blank hafter, hcomma]

theorem Spaced.trim_eq {p : List Char × List Char × List Char} (h : Spaced p) : trim (spacedText p) = p.2.1 := by
  obtain ⟨hbefore, hafter, -, htrimmed⟩ := h
  rw [spacedText, trim_surrounded _ hbefore hafter, htrimmed]

theorem Spaced.append_before {sep : List Char} {p : List Char × List Char × List Char} (hsep : sep.all isWs = true)
    (h : Spaced p) : Spaced (sep ++ p.1, p.2) := by
  obtain ⟨hbefore, hafter, hcomma, htrimmed⟩ := h
  exact ⟨by simp [hsep, hbefore], hafter, hcomma, htrimmed⟩

/-- Splitting at the commas and trimming gives the operands back. -/
theorem trim_splitCommas_spaced {pieces : List (List Char × List Char × List Char)} (hne : pieces ≠ [])
    (h : ∀ p ∈ pieces, Spaced p) :
    (splitCommas ([','].intercalate (pieces.map spacedText))).map trim = pieces.map fun p => p.2.1 := by
  rw [splitCommas_intercalate (by simpa using hne) (List.forall_mem_map.mpr fun p hp => (h p hp).comma_not_mem),
    List.map_map]
  exact List.map_congr_left fun p hp => (h p hp).trim_eq

/-- Settles O45: the white space after the mnemonic joins the first operand's own, and white space around operands is
trimmed away. -/
theorem spacingIsFree : Obligations.SpacingIsFree := by
  unfold Obligations.SpacingIsFree
  intro lead m sep pieces hlead hm hm' hsep hsepWs hne hlen hempty hpieces
  obtain ⟨p, ps, rfl⟩ := List.exists_cons_of_ne_nil hne
  obtain ⟨hp, hps⟩ := List.forall_mem_cons.mp (show ∀ q ∈ p :: ps, Spaced q from hpieces)
  have hjoined : sep ++ [','].intercalate ((p :: ps).map spacedText) =
      [','].intercalate (((sep ++ p.1, p.2) :: ps).map spacedText) := by
    simp [append_intercalate_cons, spacedText]
  have hops : operandsOf (sep ++ [','].intercalate ((p :: ps).map spacedText)) = (p :: ps).map fun q => q.2.1 := by
    refine operandsOf_eq ?_ hempty
    rw [hjoined, trim_splitCommas_spaced (by simp) (List.forall_mem_cons.mpr ⟨hp.append_before hsepWs, hps⟩)]
    rfl
  rw [List.append_assoc (lead ++ m), tokenize_parts lead m _ hlead hm hm' (isWs_head_of_blank_append hsep hsepWs), hops,
    if_neg (by simpa using hlen)]

/-- What a tokenized line consists of: a mnemonic that is not empty and has no white space, and at most three operands
(R91, R92). -/
theorem tokenize_ok {text m : List Char} {ops : List (List Char)} (h : tokenize text = .ok m ops) :
    m ≠ [] ∧ m.all (fun c => !isWs c) = true ∧ ops.length ≤ Config.maxOperands := by
  unfold tokenize at h
  split at h
  · cases h
  · next hblank =>
    split at h
    · cases h
    · next hlen =>
      cases h
      refine ⟨?_, List.all_takeWhile, not_lt.mp hlen⟩
      have hne : text.dropWhile isWs ≠ [] := fun hnil =>
        hblank (List.all_eq_true.mpr (List.dropWhile_eq_nil_iff.mp hnil))
      have hhead := List.head_dropWhile_not isWs hne
      obtain ⟨c, cs, hc⟩ := List.exists_cons_of_ne_nil hne
      simp only [hc, List.head_cons] at hhead
      simp [mnemonicOf, hc, hhead]

theorem tokenize_blank {text : List Char} (h : text.all isWs = true) : tokenize text = .noMnemonic := by
  simp [tokenize, h]

end Sys2Proof
end

section
/-! PROOFS. The dispatch of the fifteen mnemonics, the operand checks, and the assembler line of every instruction
(spec/30_encoding.md R97, R98; spec/60_exceptions.md R175 to R181). -/

namespace Sys2Proof

theorem decodeLine_of_tokens {text m : List Char} {ops : List (List Char)} (h : tokenize text = .ok m ops) :
    decodeLine text = dispatchMnemonic m ops := by
  simp [decodeLine, h]

/-! ## Dispatch -/

/-- The mnemonics of the R-format and of the I-format. -/
abbrev rMnemonics : List (List Char) := ["ADD", "ADDU", "SUB", "SUBU", "MULT", "AND", "OR"].map String.toList
abbrev iMnemonics : List (List Char) := ["ADDI", "ANDI", "ORI"].map String.toList

/-- How a mnemonic of the closed set is dispatched, by its format: which operand checks it meets and which instruction
it builds (R97). -/
inductive Dispatched (m : List Char) : Prop
  | r (c : Reg → Reg → Reg → Instr) (format : m ≠ "J".toList ∧ m ∈ rMnemonics)
      (executor : dispatchMnemonic m = operandsR c) (builds : ∀ rd rs rt, (c rd rs rt).mnemonic.toList = m)
  | i (c : Reg → Reg → Word → Instr) (format : m ≠ "J".toList ∧ m ∉ rMnemonics ∧ m ∈ iMnemonics)
      (executor : dispatchMnemonic m = operandsRegRegLit .invalidImmediate c)
      (builds : ∀ rt rs lit, (c rt rs lit).mnemonic.toList = m)
  | jump (isJump : m = "J".toList) (executor : dispatchMnemonic m = operandsLit .j)
  | branch (c : Reg → Reg → Word → Instr) (format : m ≠ "J".toList ∧ m ∉ rMnemonics ∧ m ∉ iMnemonics)
      (executor : dispatchMnemonic m = operandsRegRegLit .invalidAddress c)
      (builds : ∀ rs rt lit, (c rs rt lit).mnemonic.toList = m)

theorem mnemonic_dispatched : ∀ m ∈ Machine.mnemonics, Dispatched m := by
  simp only [Machine.mnemonics, List.map_cons, List.map_nil, List.forall_mem_cons]
  refine ⟨?add, ?addi, ?addu, ?sub, ?subu, ?j, ?mult, ?and, ?or, ?andi, ?ori, ?beq, ?bne, ?blez, ?bgtz, ?none⟩
  case add => exact .r .add (by decide) rfl fun _ _ _ => rfl
  case addu => exact .r .addu (by decide) rfl fun _ _ _ => rfl
  case sub => exact .r .sub (by decide) rfl fun _ _ _ => rfl
  case subu => exact .r .subu (by decide) rfl fun _ _ _ => rfl
  case mult => exact .r .mult (by decide) rfl fun _ _ _ => rfl
  case and => exact .r .and (by decide) rfl fun _ _ _ => rfl
  case or => exact .r .or (by decide) rfl fun _ _ _ => rfl
  case addi => exact .i .addi (by decide) rfl fun _ _ _ => rfl
  case andi => exact .i .andi (by decide) rfl fun _ _ _ => rfl
  case ori => exact .i .ori (by decide) rfl fun _ _ _ => rfl
  case j => exact .jump rfl rfl
  case beq => exact .branch .beq (by decide) rfl fun _ _ _ => rfl
  case bne => exact .branch .bne (by decide) rfl fun _ _ _ => rfl
  case blez => exact .branch .blez (by decide) rfl fun _ _ _ => rfl
  case bgtz => exact .branch .bgtz (by decide) rfl fun _ _ _ => rfl
  case none => exact List.forall_mem_nil _

theorem executors_mnemonics : ∀ e ∈ executors, e.1.toList ∈ Machine.mnemonics := by decide

/-- A mnemonic outside the closed set is unknown, whatever its operands (R174). -/
theorem dispatchMnemonic_of_not_mem {m : List Char} (h : m ∉ Machine.mnemonics) (ops : List (List Char)) :
    dispatchMnemonic m ops = .fault (.unknownInstruction (.mnemonic m)) := by
  have hnone : (executors.find? fun e => e.1.toList == m) = none :=
    List.find?_eq_none.mpr fun e he heq => h (eq_of_beq heq ▸ executors_mnemonics e he)
  rw [dispatchMnemonic, hnone]

/-- Settles O51: the mnemonic's executor makes the checks in order, format by format. -/
theorem operandChecksInOrder : Obligations.OperandChecksInOrder := by
  unfold Obligations.OperandChecksInOrder
  intro text m ops htokens hm needed rFormat iFormat registers literals
  rw [decodeLine_of_tokens htokens]
  cases mnemonic_dispatched m hm with
  | r c format executor builds =>
    obtain ⟨hcount, hregister, hexec⟩ := operandsR_cases c ops
    simp only [needed, registers, literals, rFormat, if_neg format.1, if_pos format.2, executor]
    refine ⟨hcount, hregister, by simp, fun hlen hregs _ => ?_⟩
    obtain ⟨rd, rs, rt, h⟩ := hexec hlen hregs
    exact ⟨_, h, builds rd rs rt⟩
  | i c format executor builds =>
    obtain ⟨hJ, hR, hI⟩ := format
    obtain ⟨hcount, hregister, hliteral, hexec⟩ := operandsRegRegLit_cases .invalidImmediate c ops
    simp only [needed, registers, literals, rFormat, iFormat, if_neg hJ, if_neg hR, if_pos hI, executor]
    refine ⟨hcount, hregister, hliteral, fun hlen hregs hlits => ?_⟩
    obtain ⟨rt, rs, lit, h⟩ := hexec hlen hregs hlits
    exact ⟨_, h, builds rt rs lit⟩
  | jump isJump executor =>
    obtain ⟨hcount, hliteral, hexec⟩ := operandsLit_cases .j ops
    have hR : m ∉ rMnemonics := isJump ▸ by decide
    have hI : m ∉ iMnemonics := isJump ▸ by decide
    simp only [needed, registers, literals, rFormat, iFormat, if_pos isJump, if_neg hR, if_neg hI, executor]
    refine ⟨hcount, by simp, fun hlen _ => hliteral hlen, fun hlen _ hlits => ?_⟩
    obtain ⟨lit, h⟩ := hexec hlen hlits
    exact ⟨_, h, isJump.symm⟩
  | branch c format executor builds =>
    obtain ⟨hJ, hR, hI⟩ := format
    obtain ⟨hcount, hregister, hliteral, hexec⟩ := operandsRegRegLit_cases .invalidAddress c ops
    simp only [needed, registers, literals, rFormat, iFormat, if_neg hJ, if_neg hR, if_neg hI, executor]
    refine ⟨hcount, hregister, hliteral, fun hlen hregs hlits => ?_⟩
    obtain ⟨rs, rt, lit, h⟩ := hexec hlen hregs hlits
    exact ⟨_, h, builds rs rt lit⟩

end Sys2Proof
end

section
/-! PROOFS. The assembler line of every instruction decodes back, and both front ends agree (spec/30_encoding.md R70,
R90, R98). -/

namespace Sys2Proof

/-! ## The operands of a line -/

theorem not_isWs_and_ne_comma_of_isDigit {c : Char} (h : c.isDigit = true) : isWs c = false ∧ c ≠ ',' := by
  have hne : ∀ d : Char, d.isDigit = false → c ≠ d := by
    rintro d hd rfl
    exact absurd (h.symm.trans hd) (by decide)
  simp [isWs, hne ' ' (by decide), hne '\n' (by decide), hne ',' (by decide)]

theorem regName_chars (r : Reg) : ∀ c ∈ regName r, isWs c = false ∧ c ≠ ',' := by
  have hall : ∀ r : Reg, (regName r).all (fun c => !isWs c && c != ',') = true := by decide
  simpa using hall r

/-- An operand text that the tokenizer gives back as it is, and that is short enough for a line to hold three. -/
structure CleanOperand (a : List Char) : Prop where
  ne_nil : a ≠ []
  chars : ∀ c ∈ a, isWs c = false ∧ c ≠ ','
  length_le : a.length ≤ 11

theorem cleanOperand_regName (r : Reg) : CleanOperand (regName r) where
  ne_nil := by revert r; decide
  chars := regName_chars r
  length_le := by revert r; decide

theorem cleanOperand_litText (w : Word) : CleanOperand (litText w) where
  ne_nil := litText_ne_nil w
  chars c hc := by
    obtain rfl | hdigit := litText_chars w c hc
    · decide
    · exact not_isWs_and_ne_comma_of_isDigit hdigit
  length_le := litText_length_le w

/-- An operand of a line is a register name or a printed literal (R98). -/
theorem operandTexts_clean (i : Instr) : ∀ a ∈ i.operandTexts, CleanOperand a := by
  have hops : ∀ a ∈ i.operandTexts, (∃ r, a = regName r) ∨ (∃ w, a = litText w) := by
    cases i <;> simp [Instr.operandTexts]
  intro a ha
  obtain ⟨r, rfl⟩ | ⟨w, rfl⟩ := hops a ha
  · exact cleanOperand_regName r
  · exact cleanOperand_litText w

theorem operandTexts_length (i : Instr) : i.operandTexts ≠ [] ∧ i.operandTexts.length ≤ 3 := by
  cases i <;> exact ⟨List.cons_ne_nil _ _, by simp [Instr.operandTexts]⟩

theorem mnemonic_mem (i : Instr) : i.mnemonic.toList ∈ Machine.mnemonics := by
  cases i <;> (simp only [Instr.mnemonic]; decide)

theorem mnemonics_clean :
    ∀ m ∈ Machine.mnemonics, m ≠ [] ∧ m.all (fun c => !isWs c) = true ∧ m.length ≤ 4 := by decide

/-- The joined operands are comma-separated pieces, of which each but the first begins with the space. -/
theorem joinOperands_eq_intercalate (a : List Char) (rest : List (List Char)) :
    joinOperands (a :: rest) = [','].intercalate (a :: rest.map (' ' :: ·)) := by
  induction rest generalizing a with
  | nil => simp [joinOperands, List.intercalate]
  | cons b rest ih =>
    rw [joinOperands, ih b, List.map_cons, List.intercalate_cons_cons, ← List.singleton_append (x := ' ') (l := b),
      ← append_intercalate_cons]
    · simp
    · simp

theorem joinOperands_length_le {ops : List (List Char)} (h : ∀ a ∈ ops, a.length ≤ 11) :
    (joinOperands ops).length ≤ 13 * ops.length := by
  induction ops with
  | nil => simp [joinOperands]
  | cons a rest ih =>
    obtain ⟨ha, hrest⟩ := List.forall_mem_cons.mp h
    have := ih hrest
    cases rest with
    | nil => simp [joinOperands]; omega
    | cons b rest => simp [joinOperands] at this ⊢; omega

/-! ## The line of an instruction -/

/-- A line in the syntax of R98 tokenizes to the mnemonic and the operands of its instruction: one of the spacings of
SpacingIsFree. -/
theorem tokenize_disassemble (i : Instr) : tokenize (disassemble i) = .ok i.mnemonic.toList i.operandTexts := by
  obtain ⟨hne, hlen⟩ := operandTexts_length i
  have hclean := operandTexts_clean i
  obtain ⟨hm, hm', -⟩ := mnemonics_clean _ (mnemonic_mem i)
  unfold disassemble
  generalize i.operandTexts = ops at hne hlen hclean
  obtain ⟨a, rest, rfl⟩ := List.exists_cons_of_ne_nil hne
  have htrim : ∀ b ∈ a :: rest, ',' ∉ b ∧ trim b = b := fun b hb =>
    have hchars := (hclean b hb).chars
    ⟨fun hmem => (hchars ',' hmem).2 rfl, trim_of_no_ws b fun c hc => (hchars c hc).1⟩
  have hfirst : a ≠ [] := (hclean a (by simp)).ne_nil
  have hspaced := spacingIsFree [] i.mnemonic.toList [' '] (([], a, []) :: rest.map fun b => ([' '], b, []))
    rfl hm hm' (by simp) rfl (by simp) (by simpa using hlen) (by simp [hfirst]) (by
      simpa [isWs] using htrim)
  simpa [joinOperands_eq_intercalate, Function.comp_def] using hspaced

theorem dispatch_operandsR {m : List Char} {c : Reg → Reg → Reg → Instr} (h : dispatchMnemonic m = operandsR c)
    (rd rs rt : Reg) : dispatchMnemonic m [regName rd, regName rs, regName rt] = .exec (c rd rs rt) := by
  simp [h, operandsR, idx_regName]

theorem dispatch_operandsRegRegLit {m : List Char} {bad : FaultReport} {c : Reg → Reg → Word → Instr}
    (h : dispatchMnemonic m = operandsRegRegLit bad c) (r0 r1 : Reg) (lit : Word) :
    dispatchMnemonic m [regName r0, regName r1, litText lit] = .exec (c r0 r1 lit) := by
  simp [h, operandsRegRegLit, idx_regName, printedLiteralParsesBack lit]

theorem dispatch_operandsLit {m : List Char} {c : Word → Instr} (h : dispatchMnemonic m = operandsLit c) (lit : Word) :
    dispatchMnemonic m [litText lit] = .exec (c lit) := by
  simp [h, operandsLit, printedLiteralParsesBack lit]

/-- The mnemonic and the operands of an instruction are dispatched to it. -/
theorem dispatchMnemonic_texts (i : Instr) : dispatchMnemonic i.mnemonic.toList i.operandTexts = .exec i := by
  cases i <;> simp only [Instr.mnemonic, Instr.operandTexts]
  case add | addu | sub | subu | mult | and | or => exact dispatch_operandsR rfl _ _ _
  case addi | andi | ori | beq | bne | blez | bgtz => exact dispatch_operandsRegRegLit rfl _ _ _
  case j => exact dispatch_operandsLit rfl _

theorem decodeLine_disassemble (i : Instr) : decodeLine (disassemble i) = .exec i := by
  rw [decodeLine_of_tokens (tokenize_disassemble i), dispatchMnemonic_texts]

/-- Four characters of mnemonic, a space and three operands of 11 characters with their separators fit in a line. -/
theorem disassemble_length_le (i : Instr) : (disassemble i).length ≤ 63 := by
  obtain ⟨-, hlen⟩ := operandTexts_length i
  obtain ⟨-, -, hm⟩ := mnemonics_clean _ (mnemonic_mem i)
  have hops := joinOperands_length_le fun a ha => (operandTexts_clean i a ha).length_le
  rw [disassemble, List.length_append, List.length_cons]
  omega

theorem assemble_of_decodeLine {text : List Char} {i : Instr} (h : decodeLine text = .exec i) :
    assemble text = some (encode i) := by
  simp [assemble, h]

/-- Settles O46: the line tokenizes to the instruction's mnemonic and operands, which are dispatched to it. -/
theorem disassembledLineDecodesBack : Obligations.DisassembledLineDecodesBack := fun i =>
  ⟨decodeLine_disassemble i, (wf_line _).mpr (disassemble_length_le i),
    assemble_of_decodeLine (decodeLine_disassemble i)⟩

/-- A line that assembles to a word decodes to an instruction, and the word is its encoding (R98). -/
theorem exists_of_assemble {text : List Char} {iw : InstrWord} (h : assemble text = some iw) :
    ∃ i, decodeLine text = .exec i ∧ encode i = iw := by
  unfold assemble at h
  split at h
  · next i hd => exact ⟨i, hd, Option.some.inj h⟩
  · cases h

end Sys2Proof

namespace Sys2Proof.Machine

/-- Two requests within the contract that decode alike step alike (R70). -/
theorem step_congr_of_frontEnd_eq {req req' : Request} (hwf : req.wf = true) (hwf' : req'.wf = true)
    (h : frontEnd req = frontEnd req') (s : State) (rest : List Request) :
    step { s with requests := req :: rest } = step { s with requests := req' :: rest } := by
  rw [step_of_wf rfl hwf, step_of_wf rfl hwf', h]
  rfl

/-- Settles O47: the word is the encoding of the instruction the line decodes to, so both requests decode to it. -/
theorem frontEndsAgree : Obligations.FrontEndsAgree := by
  unfold Obligations.FrontEndsAgree
  intro text iw h
  obtain ⟨i, hline, rfl⟩ := exists_of_assemble h
  have hsame : frontEnd (.word (encode i)) = frontEnd (.line text) := (decodeOfEncodedWord i).trans hline.symm
  exact ⟨hsame, fun s rest hwf => step_congr_of_frontEnd_eq hwf rfl hsame.symm s rest⟩

/-- Settles O19: the cycle runs the decoded instruction; an encoded word is the whole 64-bit word the host presents, and
decodes to its instruction. -/
theorem stepRunsDecodedInstruction : Obligations.StepRunsDecodedInstruction := by
  unfold Obligations.StepRunsDecodedInstruction
  constructor
  · intro s req rest i hreq hwf hd
    rw [step_cons hreq, cycle_of_wf hwf, hd, executeOrFault_exec]
  · intro s i
    have hword : BitVec.ofNat 64 ((encode i).toNat % 2 ^ 64) = encode i := by
      rw [Nat.mod_eq_of_lt (encode i).isLt, BitVec.ofNat_toNat, BitVec.setWidth_eq]
    constructor
    · rw [decodeTableWord, hword, decodeOfEncodedWord]
    · rw [State.withFetchWord, State.presentTableWord, hword, step_cons (present_requests _ _), cycle_of_wf rfl,
        frontEnd, decodeOfEncodedWord]
      rfl

/-! ## Lines that report a fault -/

theorem decodeLine_blank {text : List Char} (h : text.all isWs = true) : decodeLine text = .fault .noMnemonic := by
  rw [decodeLine, tokenize_blank h]

/-- Settles O48: a blank line has no mnemonic, and its fault is taken. -/
theorem blankLineReportsNoMnemonic : Obligations.BlankLineReportsNoMnemonic := by
  unfold Obligations.BlankLineReportsNoMnemonic
  intro s text rest hreq hlen hblank
  have hws : text.all isWs = true := by simpa [isWs] using hblank
  obtain ⟨t, ht, houtputs, hpc, hzero, hothers, -⟩ :=
    step_of_fault hreq ((wf_line text).mpr hlen) (decodeLine_blank hws)
  exact ⟨t, ht, houtputs, hpc, hzero, hothers⟩

/-- A text with commas has one operand more than commas (R92). -/
theorem operandsOf_length_of_comma {rest : List Char} (h : ',' ∈ rest) :
    (operandsOf rest).length = rest.count ',' + 1 := by
  rw [operandsOf, if_neg fun hblank => comma_not_mem_of_blank hblank h, List.length_map, splitCommas_length]

/-- Settles O49: three commas make at least four operands, which the tokenizer refuses before the mnemonic is
looked up. -/
theorem threeCommasReportTooManyOperands : Obligations.ThreeCommasReportTooManyOperands := by
  unfold Obligations.ThreeCommasReportTooManyOperands
  intro s lead m tail w rest hreq hlen hlead hm hm' hw hcommas
  have hcount : 3 ≤ (w :: tail).count ',' := hcommas.trans List.count_le_count_cons
  have hmany : (operandsOf (w :: tail)).length > 3 := by
    rw [operandsOf_length_of_comma (List.count_pos_iff.mp (by omega))]
    omega
  have hdecode : decodeLine (lead ++ m ++ w :: tail) = .fault .tooManyOperands := by
    rw [decodeLine, tokenize_parts lead m (w :: tail) hlead hm hm' (by simpa using hw), if_pos hmany]
  obtain ⟨t, ht, houtputs, hpc, hzero, hothers, -⟩ := step_of_fault hreq ((wf_line _).mpr hlen) hdecode
  exact ⟨t, ht, houtputs, hpc, hzero, hothers⟩

/-- Settles O50: neither the mnemonic nor the word is known, and this kind of fault keeps the pc. -/
theorem unknownInstructionLeavesPc : Obligations.UnknownInstructionLeavesPc := by
  unfold Obligations.UnknownInstructionLeavesPc
  constructor
  · intro s text m ops rest hreq hlen htokens hm
    have hdecode : decodeLine text = .fault (.unknownInstruction (.mnemonic m)) :=
      (decodeLine_of_tokens htokens).trans (dispatchMnemonic_of_not_mem hm ops)
    obtain ⟨t, ht, houtputs, hpc, hzero, hothers, -⟩ := step_of_fault hreq ((wf_line text).mpr hlen) hdecode
    exact ⟨t, ht, houtputs, hpc, hzero, hothers⟩
  · intro s iw rest hreq hrows
    have hillegal : legalWord iw = false := by simpa [legalWord, OpcodeRow.spells] using hrows
    obtain ⟨t, ht, houtputs, hpc, hzero, hothers, -⟩ := step_of_fault hreq rfl (decodeWord_of_not_legal hillegal)
    exact ⟨t, ht, houtputs, hpc, hzero, hothers⟩

/-- Settles O52: the codes as they stand in the table of R170. -/
theorem faultCodes : Obligations.FaultCodes :=
  ⟨fun _ => rfl, fun _ => ⟨rfl, rfl, fun _ => rfl, fun _ _ => rfl, rfl, rfl, rfl⟩⟩

end Sys2Proof.Machine
end

section
/-! PROOFS. What a step does not read: `x[0]`, the pc and the outputs of earlier cycles (spec/10_state.md R25, R27, R32;
spec/92_eei_decisions.md D10, D23, D27). -/

namespace Sys2Proof.Machine

/-- Two states that agree on every register, on the pending requests and on the outputs; only the pc may differ. -/
structure SameButPc (s t : State) : Prop where
  regs : ∀ i : Reg, s.readReg i = t.readReg i
  requests : s.requests = t.requests
  outputs : s.outputs = t.outputs

theorem SameButPc.sameButPcAndZero {s t : State} (h : SameButPc s t) : SameButPcAndZero s t :=
  ⟨fun i _ => h.regs i, h.requests⟩

/-- States that agree so are equal once their pcs are made equal. -/
theorem SameButPc.eq_with_pc {s t : State} (h : SameButPc s t) : t = { s with pc := t.pc } :=
  state_ext (fun i => (h.regs i).symm) rfl h.requests.symm h.outputs.symm

theorem Wrote.sameButPc {d : Reg} {v : Word} {tr : Trace} {s s' t t' : State} (h : Wrote d v tr s t)
    (h' : Wrote d v tr s' t') (hregs : ∀ i, s.readReg i = s'.readReg i) (hrequests : s.requests = s'.requests) :
    SameButPc t t' where
  regs i := by
    by_cases hi : i = d
    · rw [hi, h.value, h'.value]
    · rw [h.others i hi, h'.others i hi, hregs]
  requests := by rw [h.requests, h'.requests, hrequests]
  outputs := by rw [h.outputs, h'.outputs]

theorem Moved.sameButPc {pc pc' : Word} {tr : Trace} {s s' t t' : State} (h : Moved pc tr s t)
    (h' : Moved pc' tr s' t') (hregs : ∀ i, s.readReg i = s'.readReg i) (hrequests : s.requests = s'.requests) :
    SameButPc t t' where
  regs i := by rw [h.regs, h'.regs, hregs]
  requests := by rw [h.requests, h'.requests, hrequests]
  outputs := by rw [h.outputs, h'.outputs]

/-- An instruction reads registers only: from states with the same registers and requests it leaves states that differ
at most in the pc. -/
theorem exec_sameButPc (i : Instr) {s s' : State} (hregs : ∀ r, s.readReg r = s'.readReg r)
    (hrequests : s.requests = s'.requests) :
    ∃ t t', exec i s = .next t ∧ exec i s' = .next t' ∧ SameButPc t t' := by
  cases instr_formatted i with
  | r funct f rd rs rt runs _ _ =>
    obtain ⟨t, ht, hw⟩ := execR_spec funct f rd rs rt s
    obtain ⟨t', ht', hw'⟩ := execR_spec funct f rd rs rt s'
    rw [← hregs rs, ← hregs rt] at hw'
    exact ⟨t, t', runs ▸ ht, runs ▸ ht', hw.sameButPc hw' hregs hrequests⟩
  | i op f rt rs lit runs _ _ =>
    obtain ⟨t, ht, hw⟩ := execI_spec op f rt rs lit s
    obtain ⟨t', ht', hw'⟩ := execI_spec op f rt rs lit s'
    rw [← hregs rs] at hw'
    exact ⟨t, t', runs ▸ ht, runs ▸ ht', hw.sameButPc hw' hregs hrequests⟩
  | jump lit runs _ _ =>
    obtain ⟨t, ht, hm⟩ := execJump_spec 0x02#6 lit s
    obtain ⟨t', ht', hm'⟩ := execJump_spec 0x02#6 lit s'
    exact ⟨t, t', runs ▸ ht, runs ▸ ht', hm.sameButPc hm' hregs hrequests⟩
  | branch op cond rs rt lit _ runs _ _ =>
    obtain ⟨t, ht, hm⟩ := execB_spec op cond rs rt lit s
    obtain ⟨t', ht', hm'⟩ := execB_spec op cond rs rt lit s'
    exact ⟨t, t', runs ▸ ht, runs ▸ ht', hm.sameButPc hm' hregs hrequests⟩

theorem executeOrFault_sameButPc (d : Decoded) {s s' : State} (hregs : ∀ r, s.readReg r = s'.readReg r)
    (hrequests : s.requests = s'.requests) :
    ∃ t t', executeOrFault d s = .next t ∧ executeOrFault d s' = .next t' ∧ SameButPc t t' := by
  cases d with
  | exec i => exact exec_sameButPc i hregs hrequests
  | fault r => exact ⟨_, _, rfl, rfl, by simp [hregs], by simp [hrequests], by simp⟩

/-- States that differ in the pc, `x[0]` and the outputs only hold the same registers after the first action of a
cycle. -/
theorem begun_readReg_eq {s s' : State} (h : SameButPcAndZero s s') (i : Reg) :
    s.begun.readReg i = s'.begun.readReg i := by
  by_cases hi : i = 0
  · rw [hi, begun_readReg_zero, begun_readReg_zero]
  · rw [begun_readReg_of_ne s hi, begun_readReg_of_ne s' hi, h.1 i hi]

/-- One cycle from states that differ in the pc, `x[0]` and the outputs only: it takes both to states that differ in
the pc only. -/
theorem step_sameButPc {s s' t : State} (h : SameButPcAndZero s s') (hne : s.requests ≠ []) (ht : step s = .next t) :
    ∃ t', step s' = .next t' ∧ SameButPc t t' := by
  obtain ⟨req, rest, hreq⟩ := List.exists_cons_of_ne_nil hne
  have hwf := wf_of_step_next hreq ht
  obtain ⟨u, u', hu, hu', hsame⟩ := executeOrFault_sameButPc (frontEnd req) (begun_readReg_eq h)
    (congrArg List.tail h.2)
  rw [step_of_wf hreq hwf, hu] at ht
  cases ht
  exact ⟨u', (step_of_wf (h.2 ▸ hreq) hwf).trans hu', hsame⟩

/-- Settles O30: the step leaves a state that differs from the other one in the pc only. -/
theorem pcAndOutputsAreNeverRead : Obligations.PcAndOutputsAreNeverRead := by
  unfold Obligations.PcAndOutputsAreNeverRead
  intro s t pc o hne ht
  have hagree : SameButPcAndZero s { s with pc := pc, outputs := o } := ⟨fun _ _ => rfl, rfl⟩
  obtain ⟨u, hu, hsame⟩ := step_sameButPc hagree hne ht
  exact ⟨u, hu, hsame.eq_with_pc⟩

/-- A run without requests holds the state (R187). -/
theorem run_of_no_request (k : Nat) {s : State} (h : s.requests = []) : run k s = .next s := by
  induction k with
  | zero => rfl
  | succ k ih => rw [run_succ_of_next (step_nil h), ih]

/-- A run that answers a next state answered one at its first step. -/
theorem run_succ_next {k : Nat} {s t : State} (h : run (k + 1) s = .next t) :
    ∃ u, step s = .next u ∧ run k u = .next t := by
  cases hstep : step s with
  | next u => exact ⟨u, rfl, run_succ_of_next hstep ▸ h⟩
  | fault f => exact nomatch f
  | refused r => simp [run, hstep] at h

/-- Runs from states that differ in the pc only keep them so. -/
theorem run_sameButPc (k : Nat) {s s' t : State} (h : SameButPc s s') (ht : run k s = .next t) :
    ∃ t', run k s' = .next t' ∧ SameButPc t t' := by
  induction k generalizing s s' with
  | zero =>
    cases ht
    exact ⟨s', rfl, h⟩
  | succ k ih =>
    by_cases hnil : s.requests = []
    · rw [run_of_no_request _ hnil] at ht
      cases ht
      exact ⟨s', run_of_no_request _ (h.requests ▸ hnil), h⟩
    · obtain ⟨u, hu, hrun⟩ := run_succ_next ht
      obtain ⟨u', hu', hsame⟩ := step_sameButPc h.sameButPcAndZero hnil hu
      obtain ⟨t', ht', hsame'⟩ := ih hsame hrun
      exact ⟨t', (run_succ_of_next hu').trans ht', hsame'⟩

/-- Settles O31: the first cycle makes the states agree on everything but the pc, and the rest of the run keeps that;
a run without a cycle leaves the two states as they are. -/
theorem runsIgnorePcZeroAndOutputs : Obligations.RunsIgnorePcZeroAndOutputs := by
  unfold Obligations.RunsIgnorePcZeroAndOutputs
  intro k s s' t h ht
  by_cases hnil : s.requests = []
  · rw [run_of_no_request k hnil] at ht
    cases ht
    exact ⟨s', run_of_no_request k (h.2 ▸ hnil), h, fun _ hne => absurd hnil hne⟩
  · cases k with
    | zero =>
      cases ht
      exact ⟨s', rfl, h, fun hpos => absurd hpos (lt_irrefl 0)⟩
    | succ k =>
      obtain ⟨u, hu, hrun⟩ := run_succ_next ht
      obtain ⟨u', hu', hsame⟩ := step_sameButPc h hnil hu
      obtain ⟨t', ht', hsame'⟩ := run_sameButPc k hsame hrun
      exact ⟨t', (run_succ_of_next hu').trans ht', hsame'.sameButPcAndZero, fun _ _ => ⟨hsame'.outputs, hsame'.regs 0⟩⟩

/-! ## The zero register -/

/-- A step on a pending request sees no more of the state than its requests and what step 1 of the cycle leaves. -/
theorem step_congr_of_begun_eq {s s' : State} (hne : s.requests ≠ []) (hrequests : s.requests = s'.requests)
    (hbegun : s.begun = s'.begun) : step s = step s' := by
  obtain ⟨req, rest, hreq⟩ := List.exists_cons_of_ne_nil hne
  have hreq' : s'.requests = req :: rest := hrequests ▸ hreq
  cases hwf : req.wf with
  | true => rw [step_of_wf hreq hwf, step_of_wf hreq' hwf, hbegun]
  | false => rw [step_cons hreq, step_cons hreq', cycle_of_not_wf hwf, cycle_of_not_wf hwf]

/-- Settles O28: the value written to `x[0]` is gone after step 1 of the cycle. -/
theorem zeroRegisterIsNeverReadBack : Obligations.ZeroRegisterIsNeverReadBack := by
  unfold Obligations.ZeroRegisterIsNeverReadBack
  intro s v hne
  exact step_congr_of_begun_eq hne rfl (begun_writeReg_zero s v)

/-- A cycle that leaves `x[0]` other than 0 emitted a record whose destination is `$zero` (R25, R27 a). -/
theorem zero_destination_of_readReg_zero_ne {s t : State} (hne : s.requests ≠ []) (h : step s = .next t)
    (hzero : t.readReg 0 ≠ 0) :
    (∃ rs rt sh fn, t.outputs.trace = some (.r 0x00#6 rs rt 0 sh fn)) ∨
    (∃ op rs lit, t.outputs.trace = some (.i op rs 0 lit)) := by
  obtain ⟨hR, hI, hrest⟩ := onlyTheDestinationChanges s t hne h
  obtain ⟨i, hexecuted⟩ | ⟨r, rfl⟩ := step_next_cases hne h
  · have htrace : t.outputs.trace = some (recordOf i) := congrArg Outputs.trace hexecuted.outputs
    generalize recordOf i = tr at hexecuted htrace
    cases hexecuted with
    | r wrote =>
      obtain rfl := not_imp_comm.mp (hR _ _ _ _ _ _ htrace).2 hzero
      exact .inl ⟨_, _, _, _, htrace⟩
    | i wrote =>
      obtain rfl := not_imp_comm.mp (hI _ _ _ _ htrace).2 hzero
      exact .inr ⟨_, _, _, htrace⟩
    | jump moved | branch _ _ moved => exact absurd (hrest (.inl ⟨_, _, htrace⟩)).2 hzero
  · exact absurd (hrest (.inr (by simp))).2 hzero

/-- Settles O29: the sum of `$zero` after its reset and the literal is the literal, and the next cycle resets `$zero`
again unless its own record names it. -/
theorem zeroRegisterWriteIsVisible : Obligations.ZeroRegisterWriteIsVisible := by
  unfold Obligations.ZeroRegisterWriteIsVisible
  intro s v next rest hreq
  obtain ⟨t, ht, hvalue, -, -, -, hrequests⟩ := addiWritesSignedSum 0 0 v s.begun
  refine ⟨t, ?_, ?_, fun u hu hzero => zero_destination_of_readReg_zero_ne ?_ hu hzero⟩
  · rw [step_of_wf hreq rfl, frontEnd, decodeOfEncodedWord, executeOrFault_exec, ht]
  · rw [hvalue, begun_readReg_zero]
    simp [signed, bv32]
  · rw [hrequests, begun_requests, hreq]
    simp

end Sys2Proof.Machine
end

section
/-! PROOFS. The invariant: legal records, true reports, and runs that never stop (spec/30_encoding.md R81, R100;
spec/60_exceptions.md R174, R175, R189). -/

namespace Sys2Proof.Machine

theorem traceLegal_recordOf (i : Instr) : traceLegal (recordOf i) = true := by
  cases i <;> rfl

/-! ## The reports of the front ends are true -/

theorem reportTruthful_count {expected : Nat} {ops : List (List Char)} (hexpected : expected = 1 ∨ expected = 3)
    (hlen : ops.length ≤ Config.maxOperands) (hne : ops.length ≠ expected) :
    reportTruthful (.argumentCountMismatch expected ops.length) = true := by
  simp [reportTruthful, hexpected, hlen, hne]

theorem reportTruthful_of_operandsR {c : Reg → Reg → Reg → Instr} {ops : List (List Char)} {r : FaultReport}
    (hlen : ops.length ≤ Config.maxOperands) (h : operandsR c ops = .fault r) : reportTruthful r = true := by
  obtain ⟨hcount, hregister, hexec⟩ := operandsR_cases c ops
  by_cases h3 : ops.length = 3
  · by_cases hregs : ∀ a ∈ ops, idx a ≠ none
    · obtain ⟨rd, rs, rt, hd⟩ := hexec h3 hregs
      exact nomatch h.symm.trans hd
    · push Not at hregs
      cases h.symm.trans (hregister h3 hregs)
      rfl
  · cases h.symm.trans (hcount h3)
    exact reportTruthful_count (.inr rfl) hlen h3

theorem reportTruthful_of_operandsRegRegLit {bad : FaultReport} {c : Reg → Reg → Word → Instr}
    {ops : List (List Char)} {r : FaultReport} (hbad : reportTruthful bad = true)
    (hlen : ops.length ≤ Config.maxOperands) (h : operandsRegRegLit bad c ops = .fault r) :
    reportTruthful r = true := by
  obtain ⟨hcount, hregister, hliteral, hexec⟩ := operandsRegRegLit_cases bad c ops
  by_cases h3 : ops.length = 3
  · by_cases hregs : ∀ a ∈ ops.take 2, idx a ≠ none
    · by_cases hlits : ∀ a ∈ ops.drop 2, parseLit a ≠ none
      · obtain ⟨r0, r1, lit, hd⟩ := hexec h3 hregs hlits
        exact nomatch h.symm.trans hd
      · push Not at hlits
        cases h.symm.trans (hliteral h3 hregs hlits)
        exact hbad
    · push Not at hregs
      cases h.symm.trans (hregister h3 hregs)
      rfl
  · cases h.symm.trans (hcount h3)
    exact reportTruthful_count (.inr rfl) hlen h3

theorem reportTruthful_of_operandsLit {c : Word → Instr} {ops : List (List Char)} {r : FaultReport}
    (hlen : ops.length ≤ Config.maxOperands) (h : operandsLit c ops = .fault r) : reportTruthful r = true := by
  obtain ⟨hcount, hliteral, hexec⟩ := operandsLit_cases c ops
  by_cases h1 : ops.length = 1
  · by_cases hlits : ∀ a ∈ ops, parseLit a ≠ none
    · obtain ⟨lit, hd⟩ := hexec h1 hlits
      exact nomatch h.symm.trans hd
    · push Not at hlits
      cases h.symm.trans (hliteral h1 hlits)
      rfl
  · cases h.symm.trans (hcount h1)
    exact reportTruthful_count (.inl rfl) hlen h1

/-- Whatever a tokenized line reports is true: its executor's checks, or a mnemonic outside the closed set. -/
theorem reportTruthful_of_dispatchMnemonic {m : List Char} {ops : List (List Char)} {r : FaultReport} (hne : m ≠ [])
    (hm : m.all (fun c => !isWs c) = true) (hlen : ops.length ≤ Config.maxOperands)
    (h : dispatchMnemonic m ops = .fault r) : reportTruthful r = true := by
  by_cases hmem : m ∈ mnemonics
  · cases mnemonic_dispatched m hmem with
    | r c _ executor _ =>
      rw [executor] at h
      exact reportTruthful_of_operandsR hlen h
    | i c _ executor _ | branch c _ executor _ =>
      rw [executor] at h
      exact reportTruthful_of_operandsRegRegLit rfl hlen h
    | jump _ executor =>
      rw [executor] at h
      exact reportTruthful_of_operandsLit hlen h
  · rw [dispatchMnemonic_of_not_mem hmem] at h
    cases h
    simp only [reportTruthful, hm, Bool.and_true, Bool.and_eq_true, Bool.not_eq_true']
    exact ⟨by simpa using hne, by simpa using hmem⟩

theorem reportTruthful_of_decodeLine {text : List Char} {r : FaultReport} (h : decodeLine text = .fault r) :
    reportTruthful r = true := by
  unfold decodeLine at h
  split at h
  · cases h
    rfl
  · cases h
    rfl
  · next m ops htokens =>
    obtain ⟨hne, hm, hlen⟩ := tokenize_ok htokens
    exact reportTruthful_of_dispatchMnemonic hne hm hlen h

/-- A fault either front end gives is true of its request (R81, R174, R175). -/
theorem reportTruthful_of_frontEnd {req : Request} {r : FaultReport} (h : frontEnd req = .fault r) :
    reportTruthful r = true := by
  cases req with
  | line text => exact reportTruthful_of_decodeLine h
  | word iw =>
    obtain rfl := decodeWord_fault h
    simpa [reportTruthful] using not_legal_of_decodeWord_fault h

/-- The result of every request is legal: one record that some instruction emits, or one true report (R9). -/
theorem resultOf_legal (req : Request) : (resultOf (frontEnd req)).legal = true := by
  cases h : frontEnd req with
  | exec i => exact traceLegal_recordOf i
  | fault r => exact reportTruthful_of_frontEnd h

/-! ## The invariant -/

/-- While the host keeps its contract every step completes, takes the first pending request if there is one, and keeps
the invariant (R9, R36, R187). -/
theorem step_keeps_inv {s : State} (h : s.Inv) : ∃ t, step s = .next t ∧ t.Inv ∧ t.requests = s.requests.tail := by
  obtain ⟨hcontract, hlegal⟩ := h
  cases hreq : s.requests with
  | nil => exact ⟨s, step_nil hreq, ⟨hcontract, hlegal⟩, by rw [hreq, List.tail_nil]⟩
  | cons req rest =>
    have hall : req.wf = true ∧ rest.all Request.wf = true := by
      simpa only [State.inContract, hreq, List.all_cons, Bool.and_eq_true] using hcontract
    obtain ⟨t, ht, hrequests, houtputs⟩ := step_completes_of_wf hreq hall.1
    refine ⟨t, ht, ⟨?_, ?_⟩, hrequests⟩
    · rw [State.inContract, hrequests]
      exact hall.2
    · rw [houtputs]
      exact resultOf_legal req

/-- Settles O32: the one state the step can answer meets the invariant. -/
theorem stepKeepsInvariant : Obligations.StepKeepsInvariant := by
  unfold Obligations.StepKeepsInvariant
  intro s t hinv h
  obtain ⟨t', ht', hinv', -⟩ := step_keeps_inv hinv
  cases h.symm.trans ht'
  exact hinv'

/-- Settles O33: no request is pending and the outputs carry nothing. -/
theorem resetMeetsInvariant : Obligations.ResetMeetsInvariant := ⟨rfl, rfl⟩

/-- Settles O34, by induction on the length of the run: its first step completes, keeps the invariant and takes the
first request. -/
theorem runsInContractNeverStop : Obligations.RunsInContractNeverStop := by
  unfold Obligations.RunsInContractNeverStop
  intro k
  induction k with
  | zero => exact fun s hinv => ⟨s, rfl, hinv, rfl⟩
  | succ k ih =>
    intro s hinv
    obtain ⟨u, hu, hinv', htail⟩ := step_keeps_inv hinv
    obtain ⟨t, ht, hinvt, hdrop⟩ := ih u hinv'
    exact ⟨t, (run_succ_of_next hu).trans ht, hinvt, by rw [hdrop, htail, List.drop_tail]⟩

end Sys2Proof.Machine
end

section
/-! PROOFS. The line a host prints after a cycle (spec/30_encoding.md R102; spec/60_exceptions.md R188). -/

namespace Sys2Proof.Machine

theorem newline_not_mem_natText (n : Nat) : '\n' ∉ natText n := fun h =>
  absurd (natText_isDigit n '\n' h) (by decide)

theorem newline_not_mem_litText (w : Word) : '\n' ∉ litText w := fun h =>
  absurd (litText_chars w '\n' h) (by decide)

theorem newline_not_mem_joinFields {fields : List (List Char)} (h : ∀ a ∈ fields, '\n' ∉ a) :
    '\n' ∉ joinFields fields := by
  induction fields with
  | nil => simp [joinFields]
  | cons a rest ih =>
    obtain ⟨ha, hrest⟩ := List.forall_mem_cons.mp h
    cases rest with
    | nil => simpa [joinFields] using ha
    | cons b rest => simpa [joinFields, ha] using ih hrest

/-- Numbers and literals are printed without a newline, so a trace line is one line. -/
theorem newline_not_mem_traceLine (tr : Trace) : '\n' ∉ traceLine tr := by
  have hfields : ∀ a ∈ traceFields tr, '\n' ∉ a := by
    cases tr <;> simp [traceFields, newline_not_mem_natText, newline_not_mem_litText]
  unfold traceLine
  rw [List.mem_append, not_or]
  exact ⟨by decide, newline_not_mem_joinFields hfields⟩

/-- The message loses its newlines when it is printed, so an error line is one line (log entry 8). -/
theorem newline_not_mem_errorLine (r : FaultReport) : '\n' ∉ errorLine r := by
  unfold errorLine
  rw [List.mem_append, not_or]
  exact ⟨by decide, by simp⟩

/-- The result of a cycle prints as exactly one line, of the kind of the result (R188). -/
theorem resultOf_lines (d : Decoded) :
    ∃ line, (resultOf d).lines = [line] ∧ '\n' ∉ line ∧
      (("EXECUTE -> ".toList <+: line ∧ (resultOf d).trace.isSome = true) ∨
       ("ERRO:".toList <+: line ∧ (resultOf d).err.isSome = true)) := by
  cases d with
  | exec i =>
    exact ⟨traceLine (recordOf i), rfl, newline_not_mem_traceLine _, .inl ⟨List.prefix_append _ _, rfl⟩⟩
  | fault r => exact ⟨errorLine r, rfl, newline_not_mem_errorLine r, .inr ⟨List.prefix_append _ _, rfl⟩⟩

/-- Settles O53: the four records are evaluated, and the step leaves the result of its request on the port. -/
theorem hostPrintsOneLine : Obligations.HostPrintsOneLine := by
  unfold Obligations.HostPrintsOneLine
  refine ⟨by decide, by decide, by decide, by decide, fun s t hne h => ?_⟩
  obtain ⟨req, rest, hreq⟩ := List.exists_cons_of_ne_nil hne
  obtain ⟨t', ht', -, houtputs⟩ := step_completes_of_wf hreq (wf_of_step_next hreq h)
  cases h.symm.trans ht'
  rw [houtputs]
  exact resultOf_lines (frontEnd req)

end Sys2Proof.Machine
end
